-- ==== Sys2Proof/Word.lean ====
section
/-! DEFINITION. The values of the block: bytes, byte strings and words (spec/00_scope.md R12). All values are unsigned;
nothing is ever sign-extended, so no signed type occurs anywhere in the model. -/

namespace Sys2Proof

/-- A byte, 0..255 (R12). -/
abbrev Byte := BitVec 8

/-- A byte string, first byte first (R12, R61). -/
abbrev Bytes := List Byte

/-- A 32-bit word: MD5, SHA-1, SHA-2-224, SHA-2-256, and the command word. -/
abbrev W32 := BitVec 32

/-- A 64-bit word: SHA-2-384, SHA-2-512, Threefish, `total_len`. -/
abbrev W64 := BitVec 64

/-- `rep(v, n)`: the string of `n` bytes each equal to `v` (R12). -/
abbrev rep (v : Byte) (n : Nat) : Bytes := List.replicate n v

end Sys2Proof
end

