-- ==== Sys2Proof/Config.lean ====
section
/-! DEFINITION. What selects a variant of the block: the seven hash algorithms, the three Threefish sizes, the two
directions (spec/00_scope.md R8, R9; spec/30_encoding.md R94, R95). The numbers that go with them are in
Machine/Params.lean. The block has no free value: the spec states every value it produces
(spec/93_implementation_defined.md, Part 1), so nothing here is opaque. -/

namespace Sys2Proof

/-- The seven hash algorithms, in the order of the `ALG` tags 0..6 (R8, R94). -/
inductive Alg where
  | md2 | md5 | sha1 | sha224 | sha256 | sha384 | sha512
deriving DecidableEq, Repr

/-- The three Threefish block sizes (R9, R270). -/
inductive TfSize where
  | b256 | b512 | b1024
deriving DecidableEq, Repr

/-- The Threefish direction, the `DIR` bit (R91): 0 encrypts, 1 decrypts. -/
inductive Dir where
  | encrypt | decrypt
deriving DecidableEq, Repr

end Sys2Proof
end

