-- ==== Sys2Proof/Machine/Params.lean ====
section
/-! DEFINITION. The parameters of the hash algorithms and of Threefish (spec/00_scope.md R8, R9; spec/40_streaming_engine.md
R120; spec/47_threefish.md R270). The tag numbers here, and the tables, formulas, byte orders and encodings of the other
files, follow the rules of spec/, which marks many of them as its own decision or as general knowledge and not as its
source's words (UNVERIFIED, unsafe, log 13). -/

namespace Sys2Proof

/-- The `ALG` tag (R8, R94). -/
def Alg.tag : Alg → BitVec 4
  | .md2 => 0
  | .md5 => 1
  | .sha1 => 2
  | .sha224 => 3
  | .sha256 => 4
  | .sha384 => 5
  | .sha512 => 6

/-- The algorithm a tag selects; none for the unrecognized tags 7..15 (R94). -/
def Alg.ofTag (t : BitVec 4) : Option Alg :=
  match t.toNat with
  | 0 => some .md2
  | 1 => some .md5
  | 2 => some .sha1
  | 3 => some .sha224
  | 4 => some .sha256
  | 5 => some .sha384
  | 6 => some .sha512
  | _ => none

/-- `B`, the block size in bytes (R8). -/
def Alg.blockBytes : Alg → Nat
  | .md2 => 16
  | .md5 => 64
  | .sha1 => 64
  | .sha224 => 64
  | .sha256 => 64
  | .sha384 => 128
  | .sha512 => 128

/-- `L`, the digest size in bytes (R8, R263). -/
def Alg.digestBytes : Alg → Nat
  | .md2 => 16
  | .md5 => 16
  | .sha1 => 20
  | .sha224 => 28
  | .sha256 => 32
  | .sha384 => 48
  | .sha512 => 64

/-- `F`, the bytes of the length field at finalization (R120); MD2 has none. -/
def Alg.lengthFieldBytes : Alg → Nat
  | .md2 => 0
  | .md5 => 8
  | .sha1 => 8
  | .sha224 => 8
  | .sha256 => 8
  | .sha384 => 16
  | .sha512 => 16

/-- `block_size_bits` (R95, R270). -/
def TfSize.bits : TfSize → Nat
  | .b256 => 256
  | .b512 => 512
  | .b1024 => 1024

/-- The size a `BSB` value selects; none for any other number (R95). -/
def TfSize.ofBits (b : BitVec 16) : Option TfSize :=
  match b.toNat with
  | 256 => some .b256
  | 512 => some .b512
  | 1024 => some .b1024
  | _ => none

/-- Bytes of the key and of the block: `block_size_bits / 8` (R9, R93). -/
def TfSize.blockBytes (z : TfSize) : Nat := z.bits / 8

/-- `N`, the 64-bit words of key and block: `block_size_bits / 64` (R95, R270). -/
def TfSize.words (z : TfSize) : Nat := z.bits / 64

/-- `R`, the rounds (R270). -/
def TfSize.rounds : TfSize → Nat
  | .b256 => 72
  | .b512 => 72
  | .b1024 => 80

/-- Bytes of the tweak (R9, R93). -/
def tweakBytes : Nat := 16

end Sys2Proof
end

