-- ==== Sys2Proof/Syntax.lean ====
section
/-! DEFINITION. The instructions: the 24 legal commands of spec/30_encoding.md R96, one constructor per row of
spec/opcode_table.json, each with the operand strings R93 lets it take. -/

namespace Sys2Proof

/-- One constructor per row of the opcode table (R96). `key`, `tweak` and `data` are the operand strings of R93; the
Threefish `data` is the source's `block`. -/
inductive Instr where
  | hashInitMd2
  | hashInitMd5
  | hashInitSha1
  | hashInitSha224
  | hashInitSha256
  | hashInitSha384
  | hashInitSha512
  | hashUpdate (data : Bytes)
  | hashFinal
  | hmacInitMd2 (key : Bytes)
  | hmacInitMd5 (key : Bytes)
  | hmacInitSha1 (key : Bytes)
  | hmacInitSha224 (key : Bytes)
  | hmacInitSha256 (key : Bytes)
  | hmacInitSha384 (key : Bytes)
  | hmacInitSha512 (key : Bytes)
  | hmacUpdate (data : Bytes)
  | hmacFinal
  | tfEnc256 (key tweak data : Bytes)
  | tfEnc512 (key tweak data : Bytes)
  | tfEnc1024 (key tweak data : Bytes)
  | tfDec256 (key tweak data : Bytes)
  | tfDec512 (key tweak data : Bytes)
  | tfDec1024 (key tweak data : Bytes)
deriving DecidableEq, Repr

end Sys2Proof
end

