-- ==== Sys2Proof/WellFormed.lean ====
section
/-! DEFINITION. Which instructions a command can carry (spec/30_encoding.md R93): every one of them, but for the operand
lengths of Threefish: a key and a block of `bits/8` bytes and a tweak of 16 bytes. -/

namespace Sys2Proof

/-- The three operand lengths a Threefish command of size `z` takes (R93, R99). -/
def tfOperandsFit (z : TfSize) (key tweak data : Bytes) : Bool :=
  key.length == z.blockBytes && tweak.length == tweakBytes && data.length == z.blockBytes

/-- The instruction's operands have a length its command admits (R93). -/
def Instr.wellFormed : Instr → Bool
  | .hashInitMd2 => true
  | .hashInitMd5 => true
  | .hashInitSha1 => true
  | .hashInitSha224 => true
  | .hashInitSha256 => true
  | .hashInitSha384 => true
  | .hashInitSha512 => true
  | .hashUpdate _ => true
  | .hashFinal => true
  | .hmacInitMd2 _ => true
  | .hmacInitMd5 _ => true
  | .hmacInitSha1 _ => true
  | .hmacInitSha224 _ => true
  | .hmacInitSha256 _ => true
  | .hmacInitSha384 _ => true
  | .hmacInitSha512 _ => true
  | .hmacUpdate _ => true
  | .hmacFinal => true
  | .tfEnc256 key tweak data => tfOperandsFit .b256 key tweak data
  | .tfEnc512 key tweak data => tfOperandsFit .b512 key tweak data
  | .tfEnc1024 key tweak data => tfOperandsFit .b1024 key tweak data
  | .tfDec256 key tweak data => tfOperandsFit .b256 key tweak data
  | .tfDec512 key tweak data => tfOperandsFit .b512 key tweak data
  | .tfDec1024 key tweak data => tfOperandsFit .b1024 key tweak data

end Sys2Proof
end

