-- ==== Sys2Proof/Decode.lean ====
section
/-! DEFINITION. The command word, the total decoder of spec/30_encoding.md R99, and the encoder written from the table of
R96. Decoding the words of R96 and refusing those of R100 is shown in Tests/Slice0.lean. -/

namespace Sys2Proof

/-- A command `(CMD, KEY, TWEAK, DATA)` (R90). -/
structure Command where
  cmd : W32
  key : Bytes
  tweak : Bytes
  data : Bytes
deriving DecidableEq, Repr

/-- The four errors a command can raise (R97; spec/60_exceptions.md R300, R301, R302, R304). -/
inductive CmdError where
  | unsupportedBlockSize
  | invalidAlgorithmSelector
  | invalidSequence
  | illegalCommand
deriving DecidableEq, Repr

/-- The one verdict of the decoder on a command (R99). -/
inductive Verdict where
  | accept (i : Instr)
  | reject (e : CmdError)
deriving DecidableEq, Repr

/-! ## The fields of the command word (R91) -/

/-- `OP = CMD[3:0]`. -/
def fieldOp (w : W32) : BitVec 4 := w.extractLsb' 0 4

/-- `ALG = CMD[7:4]`. -/
def fieldAlg (w : W32) : BitVec 4 := w.extractLsb' 4 4

/-- `DIR = CMD[8]`. -/
def fieldDir (w : W32) : BitVec 1 := w.extractLsb' 8 1

/-- The reserved bits `CMD[15:9]`. -/
def fieldRsv (w : W32) : BitVec 7 := w.extractLsb' 9 7

/-- `BSB = CMD[31:16]`. -/
def fieldBsb (w : W32) : BitVec 16 := w.extractLsb' 16 16

/-! ## The instruction a selector names -/

/-- `HASH_INIT.<alg>` (R92). -/
def hashInitOf : Alg → Instr
  | .md2 => .hashInitMd2
  | .md5 => .hashInitMd5
  | .sha1 => .hashInitSha1
  | .sha224 => .hashInitSha224
  | .sha256 => .hashInitSha256
  | .sha384 => .hashInitSha384
  | .sha512 => .hashInitSha512

/-- `HMAC_INIT.<alg>(KEY)` (R92). -/
def hmacInitOf (a : Alg) (key : Bytes) : Instr :=
  match a with
  | .md2 => .hmacInitMd2 key
  | .md5 => .hmacInitMd5 key
  | .sha1 => .hmacInitSha1 key
  | .sha224 => .hmacInitSha224 key
  | .sha256 => .hmacInitSha256 key
  | .sha384 => .hmacInitSha384 key
  | .sha512 => .hmacInitSha512 key

/-- `TF_ENC.<bits>(KEY, TWEAK, DATA)` and `TF_DEC.<bits>(KEY, TWEAK, DATA)` (R92). -/
def tfOf (d : Dir) (z : TfSize) (key tweak data : Bytes) : Instr :=
  match d, z with
  | .encrypt, .b256 => .tfEnc256 key tweak data
  | .encrypt, .b512 => .tfEnc512 key tweak data
  | .encrypt, .b1024 => .tfEnc1024 key tweak data
  | .decrypt, .b256 => .tfDec256 key tweak data
  | .decrypt, .b512 => .tfDec512 key tweak data
  | .decrypt, .b1024 => .tfDec1024 key tweak data

/-- `DIR`: 0 = encrypt, 1 = decrypt (R91). -/
def dirOf (b : BitVec 1) : Dir := if b = 0 then .encrypt else .decrypt

/-! ## The decoder (R99), one definition per case of its `case op of` -/

/-- Case `0x1`: `HASH_INIT`. -/
def decodeHashInit (c : Command) : Verdict :=
  if fieldDir c.cmd ≠ 0 ∨ fieldBsb c.cmd ≠ 0 then .reject .illegalCommand
  else
    match Alg.ofTag (fieldAlg c.cmd) with
    | none => .reject .invalidAlgorithmSelector
    | some a =>
      if c.key ≠ [] ∨ c.tweak ≠ [] ∨ c.data ≠ [] then .reject .illegalCommand
      else .accept (hashInitOf a)

/-- The check the cases `0x2` and `0x6` share: the fields `ALG`, `DIR`, `BSB` zero, no `KEY`, no `TWEAK`. -/
def updateFits (c : Command) : Bool :=
  fieldAlg c.cmd = 0 && fieldDir c.cmd = 0 && fieldBsb c.cmd = 0 && c.key = [] && c.tweak = []

/-- The check the cases `0x3` and `0x7` share: as `updateFits`, and no `DATA`. -/
def finalFits (c : Command) : Bool := updateFits c && c.data = []

/-- Case `0x2`: `HASH_UPDATE`. -/
def decodeHashUpdate (c : Command) : Verdict :=
  if updateFits c then .accept (.hashUpdate c.data) else .reject .illegalCommand

/-- Case `0x3`: `HASH_FINAL`. -/
def decodeHashFinal (c : Command) : Verdict :=
  if finalFits c then .accept .hashFinal else .reject .illegalCommand

/-- Case `0x5`: `HMAC_INIT`. -/
def decodeHmacInit (c : Command) : Verdict :=
  if fieldDir c.cmd ≠ 0 ∨ fieldBsb c.cmd ≠ 0 then .reject .illegalCommand
  else
    match Alg.ofTag (fieldAlg c.cmd) with
    | none => .reject .invalidAlgorithmSelector
    | some a =>
      if c.tweak ≠ [] ∨ c.data ≠ [] then .reject .illegalCommand
      else .accept (hmacInitOf a c.key)

/-- Case `0x6`: `HMAC_UPDATE`. -/
def decodeHmacUpdate (c : Command) : Verdict :=
  if updateFits c then .accept (.hmacUpdate c.data) else .reject .illegalCommand

/-- Case `0x7`: `HMAC_FINAL`. -/
def decodeHmacFinal (c : Command) : Verdict :=
  if finalFits c then .accept .hmacFinal else .reject .illegalCommand

/-- Case `0x9`: Threefish. The size is checked before any operand (spec/47_threefish.md R289). -/
def decodeTf (c : Command) : Verdict :=
  if fieldAlg c.cmd ≠ 0 then .reject .illegalCommand
  else
    match TfSize.ofBits (fieldBsb c.cmd) with
    | none => .reject .unsupportedBlockSize
    | some z =>
      if tfOperandsFit z c.key c.tweak c.data then
        .accept (tfOf (dirOf (fieldDir c.cmd)) z c.key c.tweak c.data)
      else .reject .illegalCommand

/-- The total decoder (R99). The order of the checks is the priority among the errors (spec/60_exceptions.md R305). -/
def decode (c : Command) : Verdict :=
  if fieldRsv c.cmd ≠ 0 then .reject .illegalCommand
  else
    match (fieldOp c.cmd).toNat with
    | 0x1 => decodeHashInit c
    | 0x2 => decodeHashUpdate c
    | 0x3 => decodeHashFinal c
    | 0x5 => decodeHmacInit c
    | 0x6 => decodeHmacUpdate c
    | 0x7 => decodeHmacFinal c
    | 0x9 => decodeTf c
    | _ => .reject .illegalCommand

/-! ## The encoder -/

/-- The command that carries the instruction: its word from the table of R96, its operand strings from R93. -/
def encode : Instr → Command
  | .hashInitMd2 => ⟨0x00000001, [], [], []⟩
  | .hashInitMd5 => ⟨0x00000011, [], [], []⟩
  | .hashInitSha1 => ⟨0x00000021, [], [], []⟩
  | .hashInitSha224 => ⟨0x00000031, [], [], []⟩
  | .hashInitSha256 => ⟨0x00000041, [], [], []⟩
  | .hashInitSha384 => ⟨0x00000051, [], [], []⟩
  | .hashInitSha512 => ⟨0x00000061, [], [], []⟩
  | .hashUpdate data => ⟨0x00000002, [], [], data⟩
  | .hashFinal => ⟨0x00000003, [], [], []⟩
  | .hmacInitMd2 key => ⟨0x00000005, key, [], []⟩
  | .hmacInitMd5 key => ⟨0x00000015, key, [], []⟩
  | .hmacInitSha1 key => ⟨0x00000025, key, [], []⟩
  | .hmacInitSha224 key => ⟨0x00000035, key, [], []⟩
  | .hmacInitSha256 key => ⟨0x00000045, key, [], []⟩
  | .hmacInitSha384 key => ⟨0x00000055, key, [], []⟩
  | .hmacInitSha512 key => ⟨0x00000065, key, [], []⟩
  | .hmacUpdate data => ⟨0x00000006, [], [], data⟩
  | .hmacFinal => ⟨0x00000007, [], [], []⟩
  | .tfEnc256 key tweak data => ⟨0x01000009, key, tweak, data⟩
  | .tfEnc512 key tweak data => ⟨0x02000009, key, tweak, data⟩
  | .tfEnc1024 key tweak data => ⟨0x04000009, key, tweak, data⟩
  | .tfDec256 key tweak data => ⟨0x01000109, key, tweak, data⟩
  | .tfDec512 key tweak data => ⟨0x02000109, key, tweak, data⟩
  | .tfDec1024 key tweak data => ⟨0x04000109, key, tweak, data⟩

/-! ## A word of the opcode table -/

/-- The command whose word is `w` and whose operands are the shortest the word admits, every byte zero: for a Threefish
word of a supported size, a key, a tweak and a block of its lengths; for every other word, no operand byte
(DESIGN CHOICE, unsafe, log 8: the table gives operand strings no bits). -/
def commandOfWord (w : W32) : Command :=
  match (fieldOp w).toNat, TfSize.ofBits (fieldBsb w) with
  | 0x9, some z => ⟨w, rep 0 z.blockBytes, rep 0 tweakBytes, rep 0 z.blockBytes⟩
  | _, _ => ⟨w, [], [], []⟩

/-- The command word in the low `nbits` bits of `w`, the bits above them zero; of more than 32 bits only the low 32 are kept
(DESIGN CHOICE, unsafe, log 8: R101 knows no such word). -/
def tableWord (nbits w : Nat) : W32 := BitVec.ofNat 32 (w % 2 ^ nbits)

/-- The instruction the decoder reads from the table word `w` of `nbits` bits, if it accepts it. Every command word has 32
bits (R101), so a word said to have more gives none (DESIGN CHOICE, unsafe, log 8). -/
def decodeTableWord (nbits w : Nat) : Option Instr :=
  if nbits > 32 then none
  else
    match decode (commandOfWord (tableWord nbits w)) with
    | .accept i => some i
    | .reject _ => none

end Sys2Proof
end

