-- ==== Sys2Proof/Machine/State.lean ====
section
/-! DEFINITION. The whole state of the block (spec/10_state.md): the hash context `H`, the HMAC context `M`, and the host's
side of the interface as plain data. Reset values are those of R39. The constant tables are not state (R20). -/

namespace Sys2Proof.Machine

/-- `PHASE`, the life-cycle bit of a context (R22). -/
inductive Phase where
  | idle
  | active
deriving DecidableEq, Repr

/-- The MD2 registers that carry information between invocations: `X[0..15]` and `C[0..15]`, sixteen bytes each (R25). The
bytes `X[16..47]` are rebuilt by every invocation before they are read and are not state (R25, R35; DEDUCED, safe,
log 5). -/
structure Md2Regs where
  x : Bytes
  c : Bytes
deriving DecidableEq, Repr

/-- The MD5 registers `s[0..3]`, named A, B, C, D (R26). -/
structure Md5Regs where
  a : W32
  b : W32
  c : W32
  d : W32
deriving DecidableEq, Repr

/-- The SHA-1 registers `s[0..4]`, named a, b, c, d, e (R27). -/
structure Sha1Regs where
  a : W32
  b : W32
  c : W32
  d : W32
  e : W32
deriving DecidableEq, Repr

/-- The SHA-2 registers `s[0..7]`, named a to h: 32-bit words (R28) or 64-bit words (R29). -/
structure Sha2Regs (w : Nat) where
  a : BitVec w
  b : BitVec w
  c : BitVec w
  d : BitVec w
  e : BitVec w
  f : BitVec w
  g : BitVec w
  h : BitVec w
deriving DecidableEq, Repr

/-- `ALG` and `s` of a context together: one tagged case per algorithm, as R24 and R40 ask. The tag is the field `ALG`
(R23; DEDUCED, safe, log 4). -/
inductive HashRegs where
  | md2 (r : Md2Regs)
  | md5 (r : Md5Regs)
  | sha1 (r : Sha1Regs)
  | sha224 (r : Sha2Regs 32)
  | sha256 (r : Sha2Regs 32)
  | sha384 (r : Sha2Regs 64)
  | sha512 (r : Sha2Regs 64)
deriving DecidableEq, Repr

/-- A hash context, `H` or `M.H` (R21). `pending` is its live bytes only (R30; DEDUCED, safe, log 6). No run reaches a
context with a full `pending` or MD2 registers of another length; the operations are total on one (DESIGN CHOICE, safe,
log 10). -/
structure HashCtx where
  phase : Phase
  s : HashRegs
  pending : Bytes
  totalLen : W64
deriving DecidableEq, Repr

/-- The HMAC context `M` (R32). `k` is `M.K`, exactly `B(M.ALG)` bytes (R32; log 6). -/
structure HmacCtx where
  phase : Phase
  alg : Alg
  k : Bytes
  h : HashCtx
deriving DecidableEq, Repr

/-- What the host can do to the block: issue a command (R90) or reset it (spec/70_reset_and_hazards.md R330; DESIGN CHOICE,
safe, log 3). -/
inductive Input where
  | command (c : Command)
  | reset
deriving DecidableEq, Repr

/-- A response `(STATUS, DOUT)` (spec/30_encoding.md R97). -/
structure Response where
  status : BitVec 8
  dout : Bytes
deriving DecidableEq, Repr

/-- The state: `H` and `M` are the whole persistent state of the block (R20). `inputs` is what the host has issued and the
block has not taken yet, oldest first; `responses` is what the block has answered, oldest first (both the model's own form
of the transaction-level interface; DESIGN CHOICE, safe, log 1). -/
structure State where
  h : HashCtx
  m : HmacCtx
  inputs : List Input
  responses : List Response
deriving DecidableEq, Repr

/-- Nothing stops the block: every command terminates (spec/70_reset_and_hazards.md R343) and every error is a response
after which the block awaits the next command (spec/60_exceptions.md R303, R308). So no fault exists, and nobody raises
one (safe: the model never stops where the block goes on). -/
inductive Fault where
deriving DecidableEq, Repr

/-- Why the model has no meaning for a command. -/
inductive Refusal where
  /-- Raised by an arm of `exec` whose instruction has no meaning yet, and by nothing else; safe, since no claim about a
  next state can rest on it. No arm raises it in this model. -/
  | notModelled (mnemonic : String)
deriving DecidableEq, Repr

/-- `ALG` of a register variant: its tag (R24). -/
def HashRegs.alg : HashRegs → Alg
  | .md2 _ => .md2
  | .md5 _ => .md5
  | .sha1 _ => .sha1
  | .sha224 _ => .sha224
  | .sha256 _ => .sha256
  | .sha384 _ => .sha384
  | .sha512 _ => .sha512

/-- `c.ALG` (R21, R23). -/
def HashCtx.alg (c : HashCtx) : Alg := c.s.alg

/-- The wiped context, which is also the reset context: `PHASE` IDLE, `ALG` 0, every register zero, `pending` empty,
`total_len` 0 (R39; spec/40_streaming_engine.md R128; UNVERIFIED, unsafe, log 14). -/
def HashCtx.wiped : HashCtx :=
  { phase := .idle, s := .md2 { x := rep 0 16, c := rep 0 16 }, pending := [], totalLen := 0 }

/-- The HMAC context after reset and after `HMAC_FINAL` (R39; spec/46_hmac.md R253). `M.K` is all zero; with `ALG` 0 its
live length is 16 (log 6). -/
def HmacCtx.wiped : HmacCtx :=
  { phase := .idle, alg := .md2, k := rep 0 16, h := HashCtx.wiped }

/-- The machine right after reset: every field of `H` and `M` zero, all three `PHASE` fields IDLE (R39, R330); the host has
issued nothing and received nothing (DESIGN CHOICE, safe, log 1). -/
def State.reset : State :=
  { h := HashCtx.wiped, m := HmacCtx.wiped, inputs := [], responses := [] }

end Sys2Proof.Machine
end

