-- ==== Sys2Proof/Machine/Flags.lean ====
section
/-! DEFINITION. The block has no flag and no condition code: no command sets a carry, zero, overflow or sign flag
(spec/10_state.md R36). Its only status-like output is the 8-bit status code of a response, which is here
(spec/30_encoding.md R97). -/

namespace Sys2Proof.Machine

/-- The status code of success, `OK` (R97). -/
def statusOk : BitVec 8 := 0

/-- `code(E)`: the status code of an error (R97; spec/60_exceptions.md R300, R301, R302, R304). -/
def statusOf : CmdError → BitVec 8
  | .unsupportedBlockSize => 1
  | .invalidAlgorithmSelector => 2
  | .invalidSequence => 3
  | .illegalCommand => 4

end Sys2Proof.Machine
end

