-- ==== Sys2Proof/Machine/Ops.lean ====
section
/-! DEFINITION. The operations every command shares: ending normally, raising an error, and what the host's inputs do
(spec/00_scope.md R15; spec/60_exceptions.md R303; spec/70_reset_and_hazards.md R330). -/

namespace Sys2Proof.Machine

/-- The three outcomes of a step of this machine. -/
abbrev Out := Host.Outcome State Fault Refusal

/-- Hand a response to the host (R97). -/
def State.answer (s : State) (status : BitVec 8) (dout : Bytes) : State :=
  { s with responses := s.responses ++ [{ status := status, dout := dout }] }

/-- `respond(OK, d)`: end the command normally (R15). -/
def respond (dout : Bytes) (s : State) : Out := .next (s.answer statusOk dout)

/-- `raise E`: TAKING AN EXCEPTION on this block (R15, R303). Nothing of `H` or `M` changes, the response is
`(code(E), [])`, nothing is saved and control goes nowhere: the block awaits the next command. There is no return
from it, because there is no handler (R308). -/
def raiseError (e : CmdError) (s : State) : Out := .next (s.answer (statusOf e) [])

/-- Write the hash context `H`. -/
def State.setH (s : State) (c : HashCtx) : State := { s with h := c }

/-- Write the HMAC context `M`. -/
def State.setM (s : State) (c : HmacCtx) : State := { s with m := c }

/-- The host's inputs without the oldest one, which the block has taken (R74). -/
def State.setInputs (s : State) (l : List Input) : State := { s with inputs := l }

/-- Reset: every field of `H` and `M` takes its reset value (R330, R39). It is no command and has no response
(DESIGN CHOICE, safe, log 3). -/
def applyReset (s : State) : Out := .next ((s.setH HashCtx.wiped).setM HmacCtx.wiped)

/-- A step with nothing to execute: the block executes nothing until the host issues a command (R330; DEDUCED, safe,
log 2). -/
def awaitCommand (s : State) : Out := .next s

end Sys2Proof.Machine
end

