-- ==== Sys2Proof/Machine/Operands.lean ====
section
/-! DEFINITION. From operand bytes to words and back (spec/00_scope.md R14; spec/20_memory.md R62 to R67), and the word
operators that are not plain `BitVec` arithmetic (R13; spec/40_streaming_engine.md R133). `+w`, `-w`, `xor`, `and`, `or`
and `notw` are `+`, `-`, `^^^`, `&&&`, `|||` and `~~~` on `BitVec w`. -/

namespace Sys2Proof

/-! ## Rotations and shifts (R13, R133) -/

/-- `rotlw(x, r)`: the bits move up by `r`, the top `r` bits re-enter at the bottom. -/
def rotl {w : Nat} (x : BitVec w) (r : Nat) : BitVec w := x.rotateLeft r

/-- `rotrw(x, r) = rotlw(x, (w - r) mod w)`. -/
def rotr {w : Nat} (x : BitVec w) (r : Nat) : BitVec w := rotl x ((w - r) % w)

/-- `shr(x, r)`: zeros enter at the top. -/
def shr {w : Nat} (x : BitVec w) (r : Nat) : BitVec w := x >>> r

/-! ## Byte order (R14) -/

/-- The number a byte string is, its first byte the least significant. -/
def natOfLe : Bytes → Nat
  | [] => 0
  | b :: bs => b.toNat + 256 * natOfLe bs

/-- The `n`-byte string of a number, its least significant byte first. -/
def leOfNat : Nat → Nat → Bytes
  | 0, _ => []
  | n + 1, x => BitVec.ofNat 8 x :: leOfNat n (x / 256)

/-- `LE32` and `LE64`: a word from its bytes, the first byte the least significant. -/
def leWord (w : Nat) (b : Bytes) : BitVec w := BitVec.ofNat w (natOfLe b)

/-- `BE32` and `BE64`: a word from its bytes, the first byte the most significant. -/
def beWord (w : Nat) (b : Bytes) : BitVec w := BitVec.ofNat w (natOfLe b.reverse)

/-- `le32` and `le64`: the bytes of a word, the least significant first. -/
def leBytes {w : Nat} (x : BitVec w) : Bytes := leOfNat (w / 8) x.toNat

/-- `be32` and `be64`: the bytes of a word, the most significant first. -/
def beBytes {w : Nat} (x : BitVec w) : Bytes := (leBytes x).reverse

/-! ## Blocks as words (R62) -/

/-- The first `n` little-endian words of a byte string: word `i` is the word of its bytes `i*w/8 .. (i+1)*w/8)`
(R63, R65). -/
def leWords (w : Nat) : Nat → Bytes → List (BitVec w)
  | 0, _ => []
  | n + 1, b => leWord w (b.take (w / 8)) :: leWords w n (b.drop (w / 8))

/-- The first `n` big-endian words of a byte string (R64). -/
def beWords (w : Nat) : Nat → Bytes → List (BitVec w)
  | 0, _ => []
  | n + 1, b => beWord w (b.take (w / 8)) :: beWords w n (b.drop (w / 8))

/-- The bytes of a list of words, each little-endian, in order (R63, R65). -/
def bytesOfLeWords {w : Nat} (ws : List (BitVec w)) : Bytes := ws.flatMap leBytes

/-- The bytes of a list of words, each big-endian, in order (R64). -/
def bytesOfBeWords {w : Nat} (ws : List (BitVec w)) : Bytes := ws.flatMap beBytes

end Sys2Proof
end

