-- ==== Sys2Proof/Machine/Md5.lean ====
section
/-! DEFINITION. The MD5 compression unit (spec/42_md5.md): 32-bit words, little-endian throughout (spec/20_memory.md
R63). -/

namespace Sys2Proof.Machine

/-- `IV.MD5` (R170). -/
def md5Iv : Md5Regs := { a := 0x67452301, b := 0xEFCDAB89, c := 0x98BADCFE, d := 0x10325476 }

/-- `MD5_K[0..63]` (R171). -/
def md5K : List W32 :=
  [0xd76aa478, 0xe8c7b756, 0x242070db, 0xc1bdceee,
   0xf57c0faf, 0x4787c62a, 0xa8304613, 0xfd469501,
   0x698098d8, 0x8b44f7af, 0xffff5bb1, 0x895cd7be,
   0x6b901122, 0xfd987193, 0xa679438e, 0x49b40821]
  ++
  [0xf61e2562, 0xc040b340, 0x265e5a51, 0xe9b6c7aa,
   0xd62f105d, 0x02441453, 0xd8a1e681, 0xe7d3fbc8,
   0x21e1cde6, 0xc33707d6, 0xf4d50d87, 0x455a14ed,
   0xa9e3e905, 0xfcefa3f8, 0x676f02d9, 0x8d2a4c8a]
  ++
  [0xfffa3942, 0x8771f681, 0x6d9d6122, 0xfde5380c,
   0xa4beea44, 0x4bdecfa9, 0xf6bb4b60, 0xbebfbc70,
   0x289b7ec6, 0xeaa127fa, 0xd4ef3085, 0x04881d05,
   0xd9d4d039, 0xe6db99e5, 0x1fa27cf8, 0xc4ac5665]
  ++
  [0xf4292244, 0x432aff97, 0xab9423a7, 0xfc93a039,
   0x655b59c3, 0x8f0ccc92, 0xffeff47d, 0x85845dd1,
   0x6fa87e4f, 0xfe2ce6e0, 0xa3014314, 0x4e0811a1,
   0xf7537e82, 0xbd3af235, 0x2ad7d2bb, 0xeb86d391]

/-- `MD5_R[i] = row(i div 16)[i mod 4]` (R171). -/
def md5R (i : Nat) : Nat :=
  ([[7, 12, 17, 22], [5, 9, 14, 20], [4, 11, 16, 23], [6, 10, 15, 21]].getD (i / 16) []).getD (i % 4) 0

/-- `MD5_G[i]`, the message word of step `i` (R171). -/
def md5G (i : Nat) : Nat :=
  match i / 16 with
  | 0 => i
  | 1 => (5 * i + 1) % 16
  | 2 => (3 * i + 5) % 16
  | _ => (7 * i) % 16

/-- The boolean function of step `i`: F, G, H, I by round (R172). -/
def md5F (i : Nat) (x y z : W32) : W32 :=
  match i / 16 with
  | 0 => (x &&& y) ||| (~~~x &&& z)
  | 1 => (x &&& z) ||| (y &&& ~~~z)
  | 2 => x ^^^ y ^^^ z
  | _ => y ^^^ (x ||| ~~~z)

/-- Step `i` on the working words, for the message words `m` (R173). -/
def md5Step (m : List W32) (v : Md5Regs) (i : Nat) : Md5Regs :=
  let tmp := v.a + md5F i v.b v.c v.d + md5K.getD i 0 + m.getD (md5G i) 0
  { a := v.d, b := v.b + rotl tmp (md5R i), c := v.b, d := v.c }

/-- The 64 steps on the working words (R173). -/
def md5Steps (m : List W32) (v : Md5Regs) : Md5Regs := (List.range 64).foldl (md5Step m) v

/-- `COMPRESS.MD5`: the working words after 64 steps are added into the state (R173). -/
def md5Compress (s : Md5Regs) (blk : Bytes) : Md5Regs :=
  let v := md5Steps (leWords 32 16 blk) s
  { a := s.a + v.a, b := s.b + v.b, c := s.c + v.c, d := s.d + v.d }

/-- `ENCODE.MD5`: 16 bytes, little-endian, no truncation (R175). -/
def md5Encode (s : Md5Regs) : Bytes := bytesOfLeWords [s.a, s.b, s.c, s.d]

end Sys2Proof.Machine
end

