-- ==== Sys2Proof/Machine/Sha1.lean ====
section
/-! DEFINITION. The SHA-1 round processor (spec/43_sha1.md): 32-bit words, big-endian throughout (spec/20_memory.md
R64). -/

namespace Sys2Proof.Machine

/-- `IV.SHA1` (R190). -/
def sha1Iv : Sha1Regs :=
  { a := 0x67452301, b := 0xEFCDAB89, c := 0x98BADCFE, d := 0x10325476, e := 0xC3D2E1F0 }

/-- The function of step `t` (R191). -/
def sha1F (t : Nat) (b c d : W32) : W32 :=
  match t / 20 with
  | 0 => (b &&& c) ||| (~~~b &&& d)
  | 1 => b ^^^ c ^^^ d
  | 2 => (b &&& c) ||| (b &&& d) ||| (c &&& d)
  | _ => b ^^^ c ^^^ d

/-- `SHA1_K[t div 20]`, the constant of step `t` (R191). -/
def sha1K (t : Nat) : W32 := [0x5A827999, 0x6ED9EBA1, 0x8F1BBCDC, 0xCA62C1D6].getD (t / 20) 0

/-- The next word of the schedule from the words so far, the latest first: `w[t-3]` is the third latest (R193). -/
def sha1NextWord (latest : List W32) : W32 :=
  rotl (latest.getD 2 0 ^^^ latest.getD 7 0 ^^^ latest.getD 13 0 ^^^ latest.getD 15 0) 1

/-- `n` more words of the schedule, the latest first (R193). -/
def sha1Extend : Nat → List W32 → List W32
  | 0, latest => latest
  | n + 1, latest => sha1Extend n (sha1NextWord latest :: latest)

/-- The message schedule `w[0..79]` of a block (R193). -/
def sha1Schedule (blk : Bytes) : List W32 := (sha1Extend 64 (beWords 32 16 blk).reverse).reverse

/-- Step `t` on the working words with the schedule word `w` (R193). -/
def sha1Step (t : Nat) (w : W32) (v : Sha1Regs) : Sha1Regs :=
  { a := rotl v.a 5 + sha1F t v.b v.c v.d + v.e + sha1K t + w,
    b := v.a, c := rotl v.b 30, d := v.c, e := v.d }

/-- The steps from `t` on, one per schedule word (R193). -/
def sha1Steps : Nat → List W32 → Sha1Regs → Sha1Regs
  | _, [], v => v
  | t, w :: ws, v => sha1Steps (t + 1) ws (sha1Step t w v)

/-- `COMPRESS.SHA1`: the working words after 80 steps are added into the state (R193). -/
def sha1Compress (s : Sha1Regs) (blk : Bytes) : Sha1Regs :=
  let v := sha1Steps 0 (sha1Schedule blk) s
  { a := s.a + v.a, b := s.b + v.b, c := s.c + v.c, d := s.d + v.d, e := s.e + v.e }

/-- `ENCODE.SHA1`: 20 bytes, big-endian, no truncation (R195). -/
def sha1Encode (s : Sha1Regs) : Bytes := bytesOfBeWords [s.a, s.b, s.c, s.d, s.e]

end Sys2Proof.Machine
end

