-- ==== Sys2Proof/Machine/Sha2.lean ====
section
/-! DEFINITION. What the two SHA-2 compressors share (spec/44_sha2_32.md R213, R214; spec/45_sha2_64.md R233, R234): `Ch`,
`Maj`, the schedule, the rounds and the final addition, at a width `w`. The sigma functions and the constants are the
units' own (Sha2W32.lean, Sha2W64.lean). -/

namespace Sys2Proof.Machine

/-- The choice function (R213, R233). -/
def sha2Ch {w : Nat} (x y z : BitVec w) : BitVec w := (x &&& y) ^^^ (~~~x &&& z)

/-- The majority function (R213, R233). -/
def sha2Maj {w : Nat} (x y z : BitVec w) : BitVec w := (x &&& y) ^^^ (x &&& z) ^^^ (y &&& z)

/-- `n` more schedule words, the latest first: `W[t] = sigma1(W[t-2]) + W[t-7] + sigma0(W[t-15]) + W[t-16]`
(R214, R234). -/
def sha2Extend {w : Nat} (sigma0 sigma1 : BitVec w → BitVec w) : Nat → List (BitVec w) → List (BitVec w)
  | 0, latest => latest
  | n + 1, latest =>
    sha2Extend sigma0 sigma1 n
      ((sigma1 (latest.getD 1 0) + latest.getD 6 0 + sigma0 (latest.getD 14 0) + latest.getD 15 0) :: latest)

/-- One round with round constant `k` and schedule word `wt` (R214, R234). -/
def sha2Round {w : Nat} (bigSigma0 bigSigma1 : BitVec w → BitVec w) (v : Sha2Regs w) (k wt : BitVec w) :
    Sha2Regs w :=
  let t1 := v.h + bigSigma1 v.e + sha2Ch v.e v.f v.g + k + wt
  let t2 := bigSigma0 v.a + sha2Maj v.a v.b v.c
  ⟨t1 + t2, v.a, v.b, v.c, v.d + t1, v.e, v.f, v.g⟩

/-- The rounds, one per constant and schedule word (R214, R234). -/
def sha2Rounds {w : Nat} (bigSigma0 bigSigma1 : BitVec w → BitVec w) :
    List (BitVec w) → List (BitVec w) → Sha2Regs w → Sha2Regs w
  | k :: ks, wt :: ws, v => sha2Rounds bigSigma0 bigSigma1 ks ws (sha2Round bigSigma0 bigSigma1 v k wt)
  | _, _, v => v

/-- The final addition of the working words into the state (R214, R234). -/
def Sha2Regs.plus {w : Nat} (s v : Sha2Regs w) : Sha2Regs w :=
  ⟨s.a + v.a, s.b + v.b, s.c + v.c, s.d + v.d, s.e + v.e, s.f + v.f, s.g + v.g, s.h + v.h⟩

/-- The eight state words in index order. -/
def Sha2Regs.toList {w : Nat} (s : Sha2Regs w) : List (BitVec w) := [s.a, s.b, s.c, s.d, s.e, s.f, s.g, s.h]

/-- The digest: the first `n` state words, big-endian (R216, R217, R236, R237). -/
def sha2Encode {w : Nat} (n : Nat) (s : Sha2Regs w) : Bytes := bytesOfBeWords (s.toList.take n)

end Sys2Proof.Machine
end

