-- ==== Sys2Proof/Machine/Sha2W32.lean ====
section
/-! DEFINITION. The SHA-2 32-bit compressor, SHA-2-224 and SHA-2-256 (spec/44_sha2_32.md). -/

namespace Sys2Proof.Machine

/-- `IV.SHA224` (R210). -/
def sha224Iv : Sha2Regs 32 :=
  ⟨0xc1059ed8, 0x367cd507, 0x3070dd17, 0xf70e5939,
    0xffc00b31, 0x68581511, 0x64f98fa7, 0xbefa4fa4⟩

/-- `IV.SHA256` (R211). -/
def sha256Iv : Sha2Regs 32 :=
  ⟨0x6a09e667, 0xbb67ae85, 0x3c6ef372, 0xa54ff53a,
    0x510e527f, 0x9b05688c, 0x1f83d9ab, 0x5be0cd19⟩

/-- `SHA256_K[0..63]` in the rows of four in which the spec prints it: word `4r + c` is column `c` of row `r` (R212). -/
def sha256Rows : List (List W32) :=
  [[0x428a2f98, 0x71374491, 0xb5c0fbcf, 0xe9b5dba5],
   [0x3956c25b, 0x59f111f1, 0x923f82a4, 0xab1c5ed5],
   [0xd807aa98, 0x12835b01, 0x243185be, 0x550c7dc3],
   [0x72be5d74, 0x80deb1fe, 0x9bdc06a7, 0xc19bf174],
   [0xe49b69c1, 0xefbe4786, 0x0fc19dc6, 0x240ca1cc],
   [0x2de92c6f, 0x4a7484aa, 0x5cb0a9dc, 0x76f988da],
   [0x983e5152, 0xa831c66d, 0xb00327c8, 0xbf597fc7],
   [0xc6e00bf3, 0xd5a79147, 0x06ca6351, 0x14292967]]
  ++
  [[0x27b70a85, 0x2e1b2138, 0x4d2c6dfc, 0x53380d13],
   [0x650a7354, 0x766a0abb, 0x81c2c92e, 0x92722c85],
   [0xa2bfe8a1, 0xa81a664b, 0xc24b8b70, 0xc76c51a3],
   [0xd192e819, 0xd6990624, 0xf40e3585, 0x106aa070],
   [0x19a4c116, 0x1e376c08, 0x2748774c, 0x34b0bcb5],
   [0x391c0cb3, 0x4ed8aa4a, 0x5b9cca4f, 0x682e6ff3],
   [0x748f82ee, 0x78a5636f, 0x84c87814, 0x8cc70208],
   [0x90befffa, 0xa4506ceb, 0xbef9a3f7, 0xc67178f2]]

/-- `SHA256_K[0..63]`, row after row (R212). -/
def sha256K : List W32 := sha256Rows.flatten

/-- `sigma0`, applied to `W[t-15]` (R213). -/
def sigma0W32 (x : W32) : W32 := rotr x 7 ^^^ rotr x 18 ^^^ shr x 3

/-- `sigma1`, applied to `W[t-2]` (R213). -/
def sigma1W32 (x : W32) : W32 := rotr x 17 ^^^ rotr x 19 ^^^ shr x 10

/-- `Sigma0`, applied to `a` (R213). -/
def bigSigma0W32 (x : W32) : W32 := rotr x 2 ^^^ rotr x 13 ^^^ rotr x 22

/-- `Sigma1`, applied to `e` (R213). -/
def bigSigma1W32 (x : W32) : W32 := rotr x 6 ^^^ rotr x 11 ^^^ rotr x 25

/-- The message schedule `W[0..63]` of a block (R214). -/
def sha2W32Schedule (blk : Bytes) : List W32 :=
  (sha2Extend sigma0W32 sigma1W32 48 (beWords 32 16 blk).reverse).reverse

/-- `COMPRESS.SHA2_32`, the same for both algorithms (R214). -/
def sha2W32Compress (s : Sha2Regs 32) (blk : Bytes) : Sha2Regs 32 :=
  s.plus (sha2Rounds bigSigma0W32 bigSigma1W32 sha256K (sha2W32Schedule blk) s)

/-- `ENCODE.SHA224`: seven words, 28 bytes; `s[7]` is not output (R216). -/
def sha224Encode (s : Sha2Regs 32) : Bytes := sha2Encode 7 s

/-- `ENCODE.SHA256`: eight words, 32 bytes (R217). -/
def sha256Encode (s : Sha2Regs 32) : Bytes := sha2Encode 8 s

end Sys2Proof.Machine
end

