-- ==== Sys2Proof/Machine/Stream.lean ====
section
/-! DEFINITION. The streaming hash engine (spec/40_streaming_engine.md): the micro-operations `CTX_INIT`, `COMPRESS`,
`ABSORB`, `PAD.MD`, `FINISH` and `WIPE` on a hash context, which the hash commands run on `H` and the HMAC commands on
`M.H` (R120). -/

namespace Sys2Proof.Machine

/-- `IV.<alg>` (R120). -/
def ivOf : Alg → HashRegs
  | .md2 => .md2 md2Iv
  | .md5 => .md5 md5Iv
  | .sha1 => .sha1 sha1Iv
  | .sha224 => .sha224 sha224Iv
  | .sha256 => .sha256 sha256Iv
  | .sha384 => .sha384 sha384Iv
  | .sha512 => .sha512 sha512Iv

/-- `CTX_INIT(c, alg)` writes every field of the context, so its result does not depend on what the context held
(R122). -/
def ctxInit (a : Alg) : HashCtx := { phase := .active, s := ivOf a, pending := [], totalLen := 0 }

/-- `COMPRESS(c, blk)` on `c.s`: the compression function of `c.ALG` (R121). -/
def compress (s : HashRegs) (blk : Bytes) : HashRegs :=
  match s with
  | .md2 r => .md2 (md2Compress r blk)
  | .md5 r => .md5 (md5Compress r blk)
  | .sha1 r => .sha1 (sha1Compress r blk)
  | .sha224 r => .sha224 (sha2W32Compress r blk)
  | .sha256 r => .sha256 (sha2W32Compress r blk)
  | .sha384 r => .sha384 (sha2W64Compress r blk)
  | .sha512 r => .sha512 (sha2W64Compress r blk)

/-- Compress the first `n` blocks of `bb` bytes each, in order; answer the registers and the bytes after them (the `while`
of R124, whose trip count R134 gives, and the block loop of R126). -/
def compressBlocks (bb : Nat) : Nat → HashRegs → Bytes → HashRegs × Bytes
  | 0, s, data => (s, data)
  | n + 1, s, data => compressBlocks bb n (compress s (data.take bb)) (data.drop bb)

/-- The top-up of `ABSORB`: how many bytes of `data` go into a non-empty `pending` first (R124). -/
def topUpBytes (c : HashCtx) (data : Bytes) : Nat :=
  if c.pending.length > 0 then min (c.alg.blockBytes - c.pending.length) data.length else 0

/-- The context after the top-up: `pending` compressed and emptied when it is full (R124). -/
def topUp (c : HashCtx) (data : Bytes) : HashCtx :=
  let pending := c.pending ++ data.take (topUpBytes c data)
  if pending.length = c.alg.blockBytes then { c with s := compress c.s pending, pending := [] }
  else { c with pending := pending }

/-- `ABSORB(c, data)` (R124): the top-up, then the full blocks of what is left of `data`, then the tail into `pending`;
`total_len` advances modulo 2^64 (R31). -/
def absorb (c : HashCtx) (data : Bytes) : HashCtx :=
  let c1 := topUp c data
  let left := data.drop (topUpBytes c data)
  let done := compressBlocks c.alg.blockBytes (left.length / c.alg.blockBytes) c1.s left
  { c1 with
    s := done.1
    pending := c1.pending ++ done.2
    totalLen := c.totalLen + BitVec.ofNat 64 data.length }

/-- `bitlen`, the low 64 bits of the bit count (R127, R132). -/
def bitLength (totalLen : W64) : W64 := BitVec.ofNat 64 (8 * totalLen.toNat)

/-- The length field: little-endian for MD5, big-endian for SHA-1 and SHA-2, with eight zero bytes before it for
SHA-2-384 and SHA-2-512 (R127; spec/45_sha2_64.md R238). MD2 has none (R154). -/
def lengthField (a : Alg) (totalLen : W64) : Bytes :=
  match a with
  | .md2 => []
  | .md5 => leBytes (bitLength totalLen)
  | .sha1 => beBytes (bitLength totalLen)
  | .sha224 => beBytes (bitLength totalLen)
  | .sha256 => beBytes (bitLength totalLen)
  | .sha384 => rep 0 8 ++ beBytes (bitLength totalLen)
  | .sha512 => rep 0 8 ++ beBytes (bitLength totalLen)

/-- `z`, the zero bytes of the padding: `(B - F - 1 - p) mod B` (R127). -/
def padZeros (a : Alg) (pendingLen : Nat) : Nat :=
  (((a.blockBytes : Int) - a.lengthFieldBytes - 1 - pendingLen) % a.blockBytes).toNat

/-- `PAD.MD(c)`, the tail of MD5, SHA-1 and SHA-2 (R127). -/
def padMd (c : HashCtx) : Bytes :=
  c.pending ++ [0x80] ++ rep 0 (padZeros c.alg c.pending.length) ++ lengthField c.alg c.totalLen

/-- The digest of a state of MD5, SHA-1 or SHA-2, and the first third of the buffer for MD2 (R120). -/
def encodeDigest : HashRegs → Bytes
  | .md2 r => r.x
  | .md5 r => md5Encode r
  | .sha1 r => sha1Encode r
  | .sha224 r => sha224Encode r
  | .sha256 r => sha256Encode r
  | .sha384 r => sha384Encode r
  | .sha512 r => sha512Encode r

/-- The finish of MD5, SHA-1 and SHA-2: compress the one or two blocks of the tail and encode the state (R126). -/
def finishMd (c : HashCtx) : Bytes :=
  let tail := padMd c
  encodeDigest (compressBlocks c.alg.blockBytes (tail.length / c.alg.blockBytes) c.s tail).1

/-- The digest `FINISH(c)` returns (R126); the context it leaves is `wipe` of it. -/
def finishDigest (c : HashCtx) : Bytes :=
  match c.s with
  | .md2 r => md2Finish r c.pending
  | .md5 _ => finishMd c
  | .sha1 _ => finishMd c
  | .sha224 _ => finishMd c
  | .sha256 _ => finishMd c
  | .sha384 _ => finishMd c
  | .sha512 _ => finishMd c

/-- `WIPE(c)`: every field zero, `PHASE` IDLE, whatever the context held (R128). -/
def wipe (_c : HashCtx) : HashCtx := HashCtx.wiped

/-- `FINISH(c)`: the wiped context and the digest (R126). -/
def finish (c : HashCtx) : HashCtx × Bytes := (wipe c, finishDigest c)

/-- `hash(x)` of a whole string on a context: `CTX_INIT`, `ABSORB`, `FINISH` (spec/46_hmac.md R250;
spec/30_encoding.md R103). -/
def hashWhole (a : Alg) (x : Bytes) : Bytes := (finish (absorb (ctxInit a) x)).2

end Sys2Proof.Machine
end

