-- ==== Sys2Proof/Machine/Hash.lean ====
section
/-! DEFINITION. The hash commands on `H` (spec/40_streaming_engine.md R122, R124, R126). They read and write nothing of `M`
(spec/10_state.md R20, R41). -/

namespace Sys2Proof.Machine

/-- The generic `HASH_INIT.<alg>`: legal in either phase, no error (R122). -/
def hashInit (a : Alg) (s : State) : Out := respond [] (s.setH (ctxInit a))

/-- `HASH_INIT.MD2` (spec/41_md2.md R150). -/
def execHashInitMd2 (s : State) : Out := hashInit .md2 s

/-- `HASH_INIT.MD5` (spec/42_md5.md R170). -/
def execHashInitMd5 (s : State) : Out := hashInit .md5 s

/-- `HASH_INIT.SHA1` (spec/43_sha1.md R190). -/
def execHashInitSha1 (s : State) : Out := hashInit .sha1 s

/-- `HASH_INIT.SHA224` (spec/44_sha2_32.md R210). -/
def execHashInitSha224 (s : State) : Out := hashInit .sha224 s

/-- `HASH_INIT.SHA256` (spec/44_sha2_32.md R211). -/
def execHashInitSha256 (s : State) : Out := hashInit .sha256 s

/-- `HASH_INIT.SHA384` (spec/45_sha2_64.md R230). -/
def execHashInitSha384 (s : State) : Out := hashInit .sha384 s

/-- `HASH_INIT.SHA512` (spec/45_sha2_64.md R231). -/
def execHashInitSha512 (s : State) : Out := hashInit .sha512 s

/-- `HASH_UPDATE(DATA)`: `InvalidSequence` in IDLE, else `ABSORB(H, DATA)` (R124). -/
def execHashUpdate (data : Bytes) (s : State) : Out :=
  match s.h.phase with
  | .idle => raiseError .invalidSequence s
  | .active => respond [] (s.setH (absorb s.h data))

/-- `HASH_FINAL`: `InvalidSequence` in IDLE, else `FINISH(H)` and the digest (R126). -/
def execHashFinal (s : State) : Out :=
  match s.h.phase with
  | .idle => raiseError .invalidSequence s
  | .active =>
    let r := finish s.h
    respond r.2 (s.setH r.1)

end Sys2Proof.Machine
end

