-- ==== Sys2Proof/Machine/Hmac.lean ====
section
/-! DEFINITION. The HMAC state machine on `M` (spec/46_hmac.md). It never touches `H` (spec/10_state.md R20). -/

namespace Sys2Proof.Machine

/-- A copy of the derived key, each byte XORed with a pad constant (R251, R253; spec/10_state.md R33). -/
def xorPad (pad : Byte) (k : Bytes) : Bytes := k.map (fun b => b ^^^ pad)

/-- The inner pad constant (R251). -/
def innerPad : Byte := 0x36

/-- The outer pad constant (R253). -/
def outerPad : Byte := 0x5C

/-- `DERIVE_KEY(alg, key)`: a key longer than `B` is replaced by its digest, and the key is zero-padded to `B` (R250). The
pre-hash runs on `M.H`, which `HMAC_INIT` re-initialises straight afterwards, so it leaves no trace (R250). -/
def deriveKey (a : Alg) (key : Bytes) : Bytes :=
  let k := if key.length > a.blockBytes then hashWhole a key else key
  k ++ rep 0 (a.blockBytes - k.length)

/-- The generic `HMAC_INIT.<alg>(KEY)`: legal in either phase, no error (R251). -/
def hmacInit (a : Alg) (key : Bytes) (s : State) : Out :=
  let k0 := deriveKey a key
  respond []
    (s.setM { phase := .active, alg := a, k := k0, h := absorb (ctxInit a) (xorPad innerPad k0) })

/-- `HMAC_INIT.MD2` (R254). -/
def execHmacInitMd2 (key : Bytes) (s : State) : Out := hmacInit .md2 key s

/-- `HMAC_INIT.MD5` (R255). -/
def execHmacInitMd5 (key : Bytes) (s : State) : Out := hmacInit .md5 key s

/-- `HMAC_INIT.SHA1` (R256). -/
def execHmacInitSha1 (key : Bytes) (s : State) : Out := hmacInit .sha1 key s

/-- `HMAC_INIT.SHA224` (R257). -/
def execHmacInitSha224 (key : Bytes) (s : State) : Out := hmacInit .sha224 key s

/-- `HMAC_INIT.SHA256` (R258). -/
def execHmacInitSha256 (key : Bytes) (s : State) : Out := hmacInit .sha256 key s

/-- `HMAC_INIT.SHA384` (R259). -/
def execHmacInitSha384 (key : Bytes) (s : State) : Out := hmacInit .sha384 key s

/-- `HMAC_INIT.SHA512` (R260). -/
def execHmacInitSha512 (key : Bytes) (s : State) : Out := hmacInit .sha512 key s

/-- `HMAC_UPDATE(DATA)`: `InvalidSequence` in IDLE, else `ABSORB(M.H, DATA)`; `M.K` is not touched (R252). -/
def execHmacUpdate (data : Bytes) (s : State) : Out :=
  match s.m.phase with
  | .idle => raiseError .invalidSequence s
  | .active => respond [] (s.setM { s.m with h := absorb s.m.h data })

/-- `M.H` in the outer pass, after it has absorbed the padded key and the inner digest (R253). -/
def outerPass (m : HmacCtx) : HashCtx :=
  absorb (absorb (ctxInit m.alg) (xorPad outerPad m.k)) (finish m.h).2

/-- `HMAC_FINAL`: `InvalidSequence` in IDLE, else the inner digest, the outer pass, the MAC, and the wipe of all of `M`
(R253). -/
def execHmacFinal (s : State) : Out :=
  match s.m.phase with
  | .idle => raiseError .invalidSequence s
  | .active =>
    let r := finish (outerPass s.m)
    respond r.2 (s.setM { phase := .idle, alg := .md2, k := rep 0 16, h := r.1 })

end Sys2Proof.Machine
end

