-- ==== Sys2Proof/Machine/Threefish.lean ====
section
/-! DEFINITION. The Threefish round engine (spec/47_threefish.md): 64-bit words, little-endian operands (R276). It keeps no
state: its commands read and write nothing of `H` and `M` (R280; spec/10_state.md R38, R41). -/

namespace Sys2Proof.Machine

/-! ## Tables -/

/-- `TF_ROT_N`: row `d mod 8`, one rotation per MIX lane (R274). -/
def tfRotTable : TfSize → List (List Nat)
  | .b256 =>
    [[14, 16], [52, 57], [23, 40], [5, 37], [25, 33], [46, 12], [58, 22], [32, 32]]
  | .b512 =>
    [[46, 36, 19, 37], [33, 27, 14, 42], [17, 49, 36, 39], [44, 9, 54, 56],
     [39, 30, 34, 24], [13, 50, 10, 17], [25, 29, 39, 43], [8, 35, 56, 22]]
  | .b1024 =>
    [[24, 13, 8, 47, 8, 17, 22, 37], [38, 19, 10, 55, 49, 18, 23, 52],
     [33, 4, 51, 13, 34, 41, 59, 17], [5, 20, 48, 41, 47, 28, 16, 25],
     [41, 9, 37, 31, 12, 47, 44, 30], [16, 34, 56, 51, 4, 53, 42, 41],
     [31, 44, 47, 46, 19, 42, 44, 25], [9, 48, 35, 52, 23, 31, 37, 20]]

/-- The rotations of round `d` (R274, R278). -/
def tfRot (z : TfSize) (d : Nat) : List Nat := (tfRotTable z).getD (d % 8) []

/-- `TF_PERM_N`: the new word `i` is the old word `TF_PERM_N[i]` (R275). -/
def tfPerm : TfSize → List Nat
  | .b256 => [0, 3, 2, 1]
  | .b512 => [2, 1, 4, 7, 6, 5, 0, 3]
  | .b1024 => [0, 9, 2, 13, 6, 11, 4, 15, 10, 7, 12, 3, 14, 5, 8, 1]

/-- `TF_INVP_N`, the inverse tables (R275). -/
def tfInvPerm : TfSize → List Nat
  | .b256 => [0, 3, 2, 1]
  | .b512 => [6, 1, 0, 7, 2, 5, 4, 3]
  | .b1024 => [0, 15, 2, 11, 6, 13, 4, 9, 14, 1, 8, 5, 10, 3, 12, 7]

/-! ## Key schedule, tweak, subkeys -/

/-- `TF_C240`, the parity constant (R271). -/
def tfParity : W64 := 0x1BD11BDAA9FC1A22

/-- `k[0..N]`: the key words and the parity word (R271). -/
def tfKeySchedule (kw : List W64) : List W64 := kw ++ [kw.foldl (· ^^^ ·) tfParity]

/-- `t[0..2]`: the two tweak words and their XOR (R272). -/
def tfTweakSchedule (tw : List W64) : List W64 :=
  [tw.getD 0 0, tw.getD 1 0, tw.getD 0 0 ^^^ tw.getD 1 0]

/-- What subkey `s` adds to the key word of lane `i` of `n`: two tweak words and the subkey number in the last three lanes
(R273). -/
def tfSubkeyExtra (n : Nat) (t : List W64) (s i : Nat) : W64 :=
  if i = n - 3 then t.getD (s % 3) 0
  else if i = n - 2 then t.getD ((s + 1) % 3) 0
  else if i = n - 1 then BitVec.ofNat 64 s
  else 0

/-- `SUBKEY(s)` (R273). -/
def tfSubkey (n : Nat) (k t : List W64) (s : Nat) : List W64 :=
  (List.range n).map (fun i => k.getD ((s + i) % (n + 1)) 0 + tfSubkeyExtra n t s i)

/-- Add a subkey into the block, word by word (R279). -/
def tfAddSubkey (v sk : List W64) : List W64 := List.zipWith (· + ·) v sk

/-- Subtract a subkey from the block, word by word (R288). -/
def tfSubSubkey (v sk : List W64) : List W64 := List.zipWith (· - ·) v sk

/-! ## MIX, permutation, rounds -/

/-- `MIX(a, b, r)` (R277). -/
def tfMix (a b : W64) (r : Nat) : W64 × W64 := (a + b, rotl b r ^^^ (a + b))

/-- `UNMIX(m0, m1, r)` (R277). -/
def tfUnmix (m0 m1 : W64) (r : Nat) : W64 × W64 :=
  let b := rotr (m1 ^^^ m0) r
  (m0 - b, b)

/-- The MIXes of a round: lane `j` works on the words `2j` and `2j+1` (R277, R278). -/
def tfMixLanes : List Nat → List W64 → List W64
  | r :: rs, a :: b :: v => (tfMix a b r).1 :: (tfMix a b r).2 :: tfMixLanes rs v
  | _, v => v

/-- The inverse MIXes of a round (R277, R278). -/
def tfUnmixLanes : List Nat → List W64 → List W64
  | r :: rs, a :: b :: v => (tfUnmix a b r).1 :: (tfUnmix a b r).2 :: tfUnmixLanes rs v
  | _, v => v

/-- The list whose word `i` is word `p[i]` of `f` (R275, R278). -/
def tfPermute (p : List Nat) (f : List W64) : List W64 := p.map (fun i => f.getD i 0)

/-- `ROUND(d, v)` (R278). -/
def tfRound (z : TfSize) (d : Nat) (v : List W64) : List W64 :=
  tfPermute (tfPerm z) (tfMixLanes (tfRot z d) v)

/-- `UNROUND(d, v)` (R278). -/
def tfUnround (z : TfSize) (d : Nat) (v : List W64) : List W64 :=
  tfUnmixLanes (tfRot z d) (tfPermute (tfInvPerm z) v)

/-- Round `d` of encryption with the subkey addition before it when `d mod 4 = 0` (R279). -/
def tfEncryptRound (z : TfSize) (k t v : List W64) (d : Nat) : List W64 :=
  tfRound z d (if d % 4 = 0 then tfAddSubkey v (tfSubkey z.words k t (d / 4)) else v)

/-- Round `d` of decryption with the subkey subtraction after it when `d mod 4 = 0` (R288). -/
def tfDecryptRound (z : TfSize) (k t : List W64) (d : Nat) (v : List W64) : List W64 :=
  let u := tfUnround z d v
  if d % 4 = 0 then tfSubSubkey u (tfSubkey z.words k t (d / 4)) else u

/-- `ENCRYPT_N(k, t, v)` (R279). -/
def tfEncryptWords (z : TfSize) (k t v : List W64) : List W64 :=
  tfAddSubkey ((List.range z.rounds).foldl (tfEncryptRound z k t) v)
    (tfSubkey z.words k t (z.rounds / 4))

/-- `DECRYPT_N(k, t, v)`: the rounds from last to first (R288). -/
def tfDecryptWords (z : TfSize) (k t v : List W64) : List W64 :=
  (List.range z.rounds).foldr (tfDecryptRound z k t)
    (tfSubSubkey v (tfSubkey z.words k t (z.rounds / 4)))

/-! ## The commands -/

/-- The output bytes of a Threefish command: operands decoded, key schedule and tweak built, the block transformed, the
result encoded (R276, R280, R281). An operand byte beyond the end of a string no encoding admits reads as zero
(DESIGN CHOICE, unsafe, log 9). -/
def tfOutput (d : Dir) (z : TfSize) (key tweak data : Bytes) : Bytes :=
  let k := tfKeySchedule (leWords 64 z.words key)
  let t := tfTweakSchedule (leWords 64 2 tweak)
  let v := leWords 64 z.words data
  bytesOfLeWords
    (match d with
     | .encrypt => tfEncryptWords z k t v
     | .decrypt => tfDecryptWords z k t v)

/-- The generic `TF_ENC.<bits>` and `TF_DEC.<bits>`: no error once decoded (R280, R281, R289). -/
def threefish (d : Dir) (z : TfSize) (key tweak data : Bytes) (s : State) : Out :=
  respond (tfOutput d z key tweak data) s

/-- `TF_ENC.256` (R282). -/
def execTfEnc256 (key tweak data : Bytes) (s : State) : Out := threefish .encrypt .b256 key tweak data s

/-- `TF_ENC.512` (R283). -/
def execTfEnc512 (key tweak data : Bytes) (s : State) : Out := threefish .encrypt .b512 key tweak data s

/-- `TF_ENC.1024` (R284). -/
def execTfEnc1024 (key tweak data : Bytes) (s : State) : Out := threefish .encrypt .b1024 key tweak data s

/-- `TF_DEC.256` (R285). -/
def execTfDec256 (key tweak data : Bytes) (s : State) : Out := threefish .decrypt .b256 key tweak data s

/-- `TF_DEC.512` (R286). -/
def execTfDec512 (key tweak data : Bytes) (s : State) : Out := threefish .decrypt .b512 key tweak data s

/-- `TF_DEC.1024` (R287). -/
def execTfDec1024 (key tweak data : Bytes) (s : State) : Out := threefish .decrypt .b1024 key tweak data s

end Sys2Proof.Machine
end

