-- ==== Sys2Proof/Machine/Dispatch.lean ====
section
/-! DEFINITION. One arm per constructor of Instr: the meaning of each command. -/

namespace Sys2Proof.Machine

/-- The meaning of an instruction. -/
def exec (i : Instr) (s : State) : Host.Outcome State Fault Refusal :=
  match i with
  | .hashInitMd2 => Sys2Proof.Machine.execHashInitMd2 s
  | .hashInitMd5 => Sys2Proof.Machine.execHashInitMd5 s
  | .hashInitSha1 => Sys2Proof.Machine.execHashInitSha1 s
  | .hashInitSha224 => Sys2Proof.Machine.execHashInitSha224 s
  | .hashInitSha256 => Sys2Proof.Machine.execHashInitSha256 s
  | .hashInitSha384 => Sys2Proof.Machine.execHashInitSha384 s
  | .hashInitSha512 => Sys2Proof.Machine.execHashInitSha512 s
  | .hashUpdate data => Sys2Proof.Machine.execHashUpdate data s
  | .hashFinal => Sys2Proof.Machine.execHashFinal s
  | .hmacInitMd2 key => Sys2Proof.Machine.execHmacInitMd2 key s
  | .hmacInitMd5 key => Sys2Proof.Machine.execHmacInitMd5 key s
  | .hmacInitSha1 key => Sys2Proof.Machine.execHmacInitSha1 key s
  | .hmacInitSha224 key => Sys2Proof.Machine.execHmacInitSha224 key s
  | .hmacInitSha256 key => Sys2Proof.Machine.execHmacInitSha256 key s
  | .hmacInitSha384 key => Sys2Proof.Machine.execHmacInitSha384 key s
  | .hmacInitSha512 key => Sys2Proof.Machine.execHmacInitSha512 key s
  | .hmacUpdate data => Sys2Proof.Machine.execHmacUpdate data s
  | .hmacFinal => Sys2Proof.Machine.execHmacFinal s
  | .tfEnc256 key tweak data => Sys2Proof.Machine.execTfEnc256 key tweak data s
  | .tfEnc512 key tweak data => Sys2Proof.Machine.execTfEnc512 key tweak data s
  | .tfEnc1024 key tweak data => Sys2Proof.Machine.execTfEnc1024 key tweak data s
  | .tfDec256 key tweak data => Sys2Proof.Machine.execTfDec256 key tweak data s
  | .tfDec512 key tweak data => Sys2Proof.Machine.execTfDec512 key tweak data s
  | .tfDec1024 key tweak data => Sys2Proof.Machine.execTfDec1024 key tweak data s

end Sys2Proof.Machine
end

