-- ==== Sys2Proof/Machine/Step.lean ====
section
/-! DEFINITION. One step of the machine: the block takes the oldest input of the host and executes it to completion
(spec/00_scope.md R6, R7; spec/20_memory.md R70, R74). -/

namespace Sys2Proof.Machine

/-- One step. With no input waiting the block stays as it is (log 2). A reset is applied (R330). A command is decoded; a
rejected one raises its error and nothing else happens (R303), an accepted one is executed (R99). -/
def step (s : State) : Host.Outcome State Fault Refusal :=
  match s.inputs with
  | [] => awaitCommand s
  | .reset :: rest => applyReset (s.setInputs rest)
  | .command c :: rest =>
    match decode c with
    | .accept i => exec i (s.setInputs rest)
    | .reject e => raiseError e (s.setInputs rest)

/-- `s` with the command of the table word `w` issued as its next input, so that the next step executes it (log 7, log 8).
Nothing else changes. Of a word said to have more than 32 bits, which no command has (R101) and `decodeTableWord` reads as
none, the low 32 bits are issued (DESIGN CHOICE, unsafe, log 8). -/
def State.withFetchWord (s : State) (nbits w : Nat) : State :=
  s.setInputs (.command (commandOfWord (tableWord nbits w)) :: s.inputs)

end Sys2Proof.Machine
end

