-- ==== Sys2Proof/Machine/Assembler.lean ====
section
/-! DEFINITION. The assembly lines, by their parts, and the pseudo-commands of the block (spec/30_encoding.md R102, R103).
Lines as text are read in Machine/AsmText.lean. -/

namespace Sys2Proof.Machine

/-- A byte operand of an assembly line: a quoted ASCII string, a hexadecimal string by its digit pairs, or a repetition
(R102). -/
inductive ByteText where
  | ascii (text : List Char)
  | hex (bytes : Bytes)
  | repeated (b : Byte) (count : Nat)
deriving DecidableEq, Repr

/-- The bytes an operand stands for: the character codes with no terminator, the digit pairs, or `count` copies (R102). -/
def ByteText.bytes : ByteText → Bytes
  | .ascii text => text.map (fun c => BitVec.ofNat 8 c.toNat)
  | .hex bytes => bytes
  | .repeated b count => rep b count

/-- An assembly line (R102). `bits` of a Threefish line is a number, so that an unsupported size can be written. -/
inductive AsmLine where
  | hashInit (a : Alg)
  | hashUpdate (data : ByteText)
  | hashFinal
  | hmacInit (a : Alg) (key : ByteText)
  | hmacUpdate (data : ByteText)
  | hmacFinal
  | tfEnc (bits : BitVec 16) (key tweak block : ByteText)
  | tfDec (bits : BitVec 16) (key tweak block : ByteText)
deriving DecidableEq, Repr

/-- The command word of a line with a tag: `op + 16*tag` (R102). -/
def taggedWord (op tag : Nat) : W32 := BitVec.ofNat 32 (op + 16 * tag)

/-- The command word of a Threefish line: `op + 65536*bits` (R102). -/
def sizedWord (op : Nat) (bits : BitVec 16) : W32 := BitVec.ofNat 32 (op + 65536 * bits.toNat)

/-- The command of a line, row by row of the table of R102. -/
def assemble : AsmLine → Command
  | .hashInit a => ⟨taggedWord 0x1 a.tag.toNat, [], [], []⟩
  | .hashUpdate data => ⟨0x2, [], [], data.bytes⟩
  | .hashFinal => ⟨0x3, [], [], []⟩
  | .hmacInit a key => ⟨taggedWord 0x5 a.tag.toNat, key.bytes, [], []⟩
  | .hmacUpdate data => ⟨0x6, [], [], data.bytes⟩
  | .hmacFinal => ⟨0x7, [], [], []⟩
  | .tfEnc bits key tweak block => ⟨sizedWord 0x9 bits, key.bytes, tweak.bytes, block.bytes⟩
  | .tfDec bits key tweak block => ⟨sizedWord 0x109 bits, key.bytes, tweak.bytes, block.bytes⟩

/-! ## Pseudo-commands (R103) -/

/-- `hash(buffer)` on a context of algorithm `a`. -/
def pseudoHash (a : Alg) (buffer : Bytes) : List Command :=
  [assemble (.hashInit a), assemble (.hashUpdate (.hex buffer)), assemble .hashFinal]

/-- `digest(algorithm, input)`: the expansion of `hash`; for an unknown tag only the `HASH_INIT` word with that tag is issued,
which gives the error. -/
def pseudoDigest (tag : BitVec 4) (input : Bytes) : List Command :=
  match Alg.ofTag tag with
  | some a => pseudoHash a input
  | none => [⟨taggedWord 0x1 tag.toNat, [], [], []⟩]

/-- `hmac(algorithm, key, input)`. -/
def pseudoHmac (a : Alg) (key input : Bytes) : List Command :=
  [assemble (.hmacInit a (.hex key)), assemble (.hmacUpdate (.hex input)), assemble .hmacFinal]

/-- `threefish(direction, block_size_bits, key, tweak, block)`: one command. -/
def pseudoThreefish (d : Dir) (bits : BitVec 16) (key tweak block : Bytes) : List Command :=
  match d with
  | .encrypt => [assemble (.tfEnc bits (.hex key) (.hex tweak) (.hex block))]
  | .decrypt => [assemble (.tfDec bits (.hex key) (.hex tweak) (.hex block))]

end Sys2Proof.Machine
end

