-- ==== Sys2Proof/Machine/AsmText.lean ====
section
/-! DEFINITION. Assembly lines as text (spec/30_encoding.md R102): one command per line, comments from `;` on, byte operands
as quoted strings, hexadecimal strings or repetitions. What R102 leaves open of the text is log 12 (DESIGN CHOICE, safe). -/

namespace Sys2Proof.Machine

/-- A text cut at every `sep`. With `quotes`, a `sep` between two `"` does not cut; `inside` says whether the text begins
between two of them. -/
def cutAt (sep : Char) (quotes : Bool) : Bool → List Char → List (List Char)
  | _, [] => [[]]
  | inside, c :: rest =>
    let after := cutAt sep quotes (if quotes && c = '"' then !inside else inside) rest
    if c = sep && !inside then [] :: after
    else
      match after with
      | [] => [[c]]
      | piece :: pieces => (c :: piece) :: pieces

/-- The line without its comment (R102). -/
def withoutComment (line : List Char) : List Char := (cutAt ';' true false line).headD []

/-- The words of a line, which spaces separate (log 12). -/
def lineWords (line : List Char) : List (List Char) :=
  (cutAt ' ' true false (withoutComment line)).filter (fun w => !w.isEmpty)

/-- A decimal digit. -/
def decDigit (c : Char) : Option Nat := if '0' ≤ c ∧ c ≤ '9' then some (c.toNat - '0'.toNat) else none

/-- A hexadecimal digit of either case (log 12). -/
def hexDigit (c : Char) : Option Nat :=
  if 'a' ≤ c ∧ c ≤ 'f' then some (c.toNat - 'a'.toNat + 10)
  else if 'A' ≤ c ∧ c ≤ 'F' then some (c.toNat - 'A'.toNat + 10)
  else decDigit c

/-- The number decimal digits spell after those already read; leading zeros count for nothing (DESIGN CHOICE, safe,
log 12). -/
def decimalFrom (n : Nat) : List Char → Option Nat
  | [] => some n
  | c :: rest => (decDigit c).bind fun d => decimalFrom (10 * n + d) rest

/-- The number one or more decimal digits spell. -/
def decimal : List Char → Option Nat
  | [] => none
  | text => decimalFrom 0 text

/-- The byte two hexadecimal digits spell, high digit first (R102). -/
def hexByte (a b : Char) : Option Byte :=
  (hexDigit a).bind fun h => (hexDigit b).map fun l => BitVec.ofNat 8 (16 * h + l)

/-- The bytes hexadecimal digit pairs spell (R102). No digit at all spells the empty string, and an odd number of digits
spells none (DESIGN CHOICE, safe, log 12). -/
def hexPairs : List Char → Option Bytes
  | [] => some []
  | [_] => none
  | a :: b :: rest => (hexByte a b).bind fun x => (hexPairs rest).map (x :: ·)

/-- The characters of a quoted ASCII string after its opening quote, which its last character closes (R102); none where a
character is not ASCII or the closing quote is missing (DESIGN CHOICE, safe, log 12). -/
def quotedText : List Char → Option (List Char)
  | [] => none
  | [c] => if c = '"' then some [] else none
  | c :: rest => if c = '"' ∨ 128 ≤ c.toNat then none else (quotedText rest).map (c :: ·)

/-- A byte operand: `"abc"`, `hex:0b0b0b` or `0x0b*16` (R102). A count of 0 gives the empty string (DESIGN CHOICE, safe,
log 12). -/
def readBytes : List Char → Option ByteText
  | '"' :: rest => (quotedText rest).map .ascii
  | 'h' :: 'e' :: 'x' :: ':' :: digits => (hexPairs digits).map .hex
  | '0' :: 'x' :: a :: b :: '*' :: count =>
    (hexByte a b).bind fun x => (decimal count).map (.repeated x)
  | _ => none

/-- The operand written `name=<bytes>` (R102). -/
def readNamed (name text : List Char) : Option ByteText :=
  if text.take name.length = name then
    match text.drop name.length with
    | '=' :: rest => readBytes rest
    | _ => none
  else none

/-- The algorithm a name stands for (R102). -/
def readAlg (name : List Char) : Option Alg :=
  if name = "MD2".toList then some .md2
  else if name = "MD5".toList then some .md5
  else if name = "SHA1".toList then some .sha1
  else if name = "SHA224".toList then some .sha224
  else if name = "SHA256".toList then some .sha256
  else if name = "SHA384".toList then some .sha384
  else if name = "SHA512".toList then some .sha512
  else none

/-- The block size a decimal number gives, if the field `BSB` can hold it (log 12). -/
def readBits (text : List Char) : Option (BitVec 16) :=
  (decimal text).bind fun n => if n < 2 ^ 16 then some (BitVec.ofNat 16 n) else none

/-- A Threefish line of either direction, from its size and its three named operands. -/
def readThreefish (line : BitVec 16 → ByteText → ByteText → ByteText → AsmLine) (bits key tweak block : List Char) :
    Option AsmLine :=
  (readBits bits).bind fun n =>
    (readNamed "key".toList key).bind fun k =>
      (readNamed "tweak".toList tweak).bind fun t =>
        (readNamed "block".toList block).map fun b => line n k t b

/-- The assembly line that a mnemonic, cut at its dot, and the words after it spell, row by row of the table of R102. -/
def readWords (op : List (List Char)) (operands : List (List Char)) : Option AsmLine :=
  match op, operands with
  | [name], [] =>
    if name = "HASH_FINAL".toList then some .hashFinal
    else if name = "HMAC_FINAL".toList then some .hmacFinal
    else none
  | [name], [data] =>
    if name = "HASH_UPDATE".toList then (readBytes data).map .hashUpdate
    else if name = "HMAC_UPDATE".toList then (readBytes data).map .hmacUpdate
    else none
  | [name, alg], [] =>
    if name = "HASH_INIT".toList then (readAlg alg).map .hashInit else none
  | [name, alg], [key] =>
    if name = "HMAC_INIT".toList then
      (readAlg alg).bind fun a => (readBytes key).map (.hmacInit a)
    else none
  | [name, bits], [key, tweak, block] =>
    if name = "TF_ENC".toList then readThreefish .tfEnc bits key tweak block
    else if name = "TF_DEC".toList then readThreefish .tfDec bits key tweak block
    else none
  | _, _ => none

/-- The commands of one line of text: none on a line that is empty but for a comment, else the one command it spells; a line
that spells nothing is no assembly (R102). -/
def assembleLine (line : List Char) : Option (List Command) :=
  match lineWords line with
  | [] => some []
  | op :: operands => (readWords (cutAt '.' false false op) operands).map (fun l => [assemble l])

/-- The commands of a text, one line after the other (R102). A text with a line that spells nothing gives none at all
(DESIGN CHOICE, safe, log 12). -/
def assembleText (text : List Char) : Option (List Command) :=
  (cutAt '\n' false false text).foldr
    (fun line rest => (assembleLine line).bind fun cs => rest.map (cs ++ ·)) (some [])

end Sys2Proof.Machine
end

