-- ==== Sys2Proof/Machine/Instances.lean ====
section
/-! DEFINITION. Several instances of the block (spec/20_memory.md R79; spec/60_exceptions.md R312): the product of as many
copies of the state, each command addressed to one copy. They share nothing and know nothing of one another. -/

namespace Sys2Proof.Machine

/-- One step of copy `n` of several blocks (R312). Where there is no copy `n` nothing happens (DESIGN CHOICE, safe,
log 11). -/
def stepInstance (n : Nat) (blocks : List State) : Host.Outcome (List State) Fault Refusal :=
  match blocks[n]? with
  | none => .next blocks
  | some s =>
    match step s with
    | .next s' => .next (blocks.set n s')
    | .fault r => .fault r
    | .refused r => .refused r

end Sys2Proof.Machine
end

