-- ==== Sys2Proof/Safety.lean ====
section
/-! DEFINITION. The terms the statements use: what a well-formed state is, what the streaming engine should compute on a
whole message without any stream, the classes of commands, and what it is to issue a list of commands. -/

namespace Sys2Proof.Machine

/-! ## Well-formed states -/

/-- The MD2 registers are sixteen bytes each (spec/10_state.md R25); the other shapes hold fixed words. -/
def HashRegs.WF : HashRegs → Prop
  | .md2 r => r.x.length = 16 ∧ r.c.length = 16
  | .md5 _ => True
  | .sha1 _ => True
  | .sha224 _ => True
  | .sha256 _ => True
  | .sha384 _ => True
  | .sha512 _ => True

/-- A well-formed hash context: register lengths (R25), `0 <= len(pending) < B` (R30), and in IDLE every field at its wiped
value (R23, R39). -/
structure HashCtx.WF (c : HashCtx) : Prop where
  regs : c.s.WF
  pending_lt : c.pending.length < c.alg.blockBytes
  idle_wiped : c.phase = .idle → c = HashCtx.wiped

/-- A well-formed HMAC context: `M.K` of exactly `B` bytes, `M.H` well-formed, while ACTIVE `M.H` ACTIVE for the same
algorithm (R32), in IDLE everything wiped (R39). -/
structure HmacCtx.WF (m : HmacCtx) : Prop where
  key_length : m.k.length = m.alg.blockBytes
  inner : m.h.WF
  active_inner : m.phase = .active → m.h.phase = .active ∧ m.h.alg = m.alg
  idle_wiped : m.phase = .idle → m = HmacCtx.wiped

/-- The invariant of the block: both contexts are well-formed. -/
structure State.Inv (s : State) : Prop where
  hash : s.h.WF
  hmac : s.m.WF

/-! ## Digests of whole messages, with no streaming -/

/-- The first `n` blocks of `bb` bytes of a string, in order. -/
def firstBlocks (bb : Nat) : Nat → Bytes → List Bytes
  | 0, _ => []
  | n + 1, x => x.take bb :: firstBlocks bb n (x.drop bb)

/-- The full blocks of `bb` bytes of a string, in order. -/
def fullBlocks (bb : Nat) (x : Bytes) : List Bytes := firstBlocks bb (x.length / bb) x

/-- The bytes of a string after its full blocks. -/
def afterBlocks (bb : Nat) (x : Bytes) : Bytes := x.drop (bb * (x.length / bb))

/-- The registers after compressing all full blocks of a string (spec/40_streaming_engine.md R131). -/
def compressAll (s : HashRegs) (x : Bytes) : HashRegs := (fullBlocks s.alg.blockBytes x).foldl compress s

/-- The zero bytes between the `0x80` byte and the length field: what fills the block, or the next one where the field
does not fit behind `p` pending bytes (R127). -/
def zerosToFill (a : Alg) (p : Nat) : Nat :=
  if p + 1 + a.lengthFieldBytes ≤ a.blockBytes then a.blockBytes - (p + 1 + a.lengthFieldBytes)
  else 2 * a.blockBytes - (p + 1 + a.lengthFieldBytes)

/-- The digest of what a context holds, `pending` being the bytes not yet compressed and `total` the bytes absorbed: for
MD2 the pad block and then the checksum block (spec/41_md2.md R154), for the others the padded tail and the encoded
state (R126, R127). -/
def digestFrom (s : HashRegs) (pending : Bytes) (total : W64) : Bytes :=
  match s with
  | .md2 r =>
    let p := 16 - pending.length
    let r1 := md2Compress r (pending ++ rep (BitVec.ofNat 8 p) p)
    (md2Compress r1 r1.c).x
  | s =>
    encodeDigest
      (compressAll s
        (pending ++ [0x80] ++ rep 0 (zerosToFill s.alg pending.length) ++ lengthField s.alg total))

/-- The digest of a whole message by the algorithm `a`: its full blocks compressed from the IV, then the finish
(R131, spec/46_hmac.md R261: `Hash`). -/
def messageDigest (a : Alg) (x : Bytes) : Bytes :=
  digestFrom (compressAll (ivOf a) x) (afterBlocks a.blockBytes x) (BitVec.ofNat 64 x.length)

/-- `K0` (spec/46_hmac.md R250): a key longer than `B` is replaced by its digest; the rest is zero. -/
def derivedKey (a : Alg) (key : Bytes) : Bytes :=
  if a.blockBytes < key.length then messageDigest a key ++ rep 0 (a.blockBytes - a.digestBytes)
  else key ++ rep 0 (a.blockBytes - key.length)

/-- The message authentication code of RFC 2104 (spec/46_hmac.md R261). -/
def messageMac (a : Alg) (key x : Bytes) : Bytes :=
  messageDigest a
    (xorPad outerPad (derivedKey a key) ++ messageDigest a (xorPad innerPad (derivedKey a key) ++ x))

/-! ## Threefish, word by word -/

/-- Word `i` of the MIXed block: an even word is the sum of its pair, an odd word the rotated word XORed with that sum
(spec/47_threefish.md R277, R278). -/
def mixedWord (z : TfSize) (d : Nat) (v : List W64) (i : Nat) : W64 :=
  let a := v.getD (2 * (i / 2)) 0
  let b := v.getD (2 * (i / 2) + 1) 0
  if i % 2 = 0 then a + b else rotl b ((tfRot z d).getD (i / 2) 0) ^^^ (a + b)

/-! ## Classes of commands -/

/-- The hash commands (spec/30_encoding.md R92, `OP` 0x1 to 0x3). -/
def isHashCommand (i : Instr) : Prop :=
  (∃ a, i = hashInitOf a) ∨ (∃ data, i = .hashUpdate data) ∨ i = .hashFinal

/-- The HMAC commands (`OP` 0x5 to 0x7). -/
def isHmacCommand (i : Instr) : Prop :=
  (∃ a key, i = hmacInitOf a key) ∨ (∃ data, i = .hmacUpdate data) ∨ i = .hmacFinal

/-- The Threefish commands (`OP` 0x9). -/
def isThreefishCommand (i : Instr) : Prop :=
  ∃ d z key tweak data, i = tfOf d z key tweak data

/-! ## Issuing commands -/

/-- The state in which the host has issued exactly these commands and then `rest`. -/
def State.issue (s : State) (cs : List Command) (rest : List Input) : State :=
  s.setInputs (cs.map Input.command ++ rest)

/-- A response of success. -/
def okResponse (dout : Bytes) : Response := { status := statusOk, dout := dout }

/-- An error response (spec/60_exceptions.md R303): the code, and no output. -/
def errorResponse (e : CmdError) : Response := { status := statusOf e, dout := [] }

end Sys2Proof.Machine
end

