-- ==== Sys2Proof/Certificates/Slice0/Obligations.lean ====
section
/-! DEFINITION. The statements about the block, for the provers. Each docstring says which rule of spec/ it formalises; a
clause that rests on a choice of the model names the log entry. -/

namespace Sys2Proof.Machine

/-! ## Encoding -/

/-- The 24 legal command words (spec/30_encoding.md R96). -/
def legalWords : List W32 :=
  [0x00000001, 0x00000011, 0x00000021, 0x00000031, 0x00000041, 0x00000051, 0x00000061, 0x00000002, 0x00000003,
   0x00000005, 0x00000015, 0x00000025, 0x00000035, 0x00000045, 0x00000055, 0x00000065, 0x00000006, 0x00000007,
   0x01000009, 0x02000009, 0x04000009, 0x01000109, 0x02000109, 0x04000109]

end Sys2Proof.Machine

open Sys2Proof Sys2Proof.Machine

/-- Decoding the command an instruction is encoded as gives the instruction back, with every operand (R93, R96, R99). -/
def Obligations.DecodeOfEncodeIsTheInstruction : Prop :=
  ∀ i : Instr, i.wellFormed = true → decode (encode i) = .accept i

/-- There are exactly 24 legal command words, each one exact 32-bit value: an accepted command is the encoding of a
well-formed instruction and its word is one of the table's; every word of the table is accepted with some operands; and
each instruction has the word its row gives it (R96). -/
def Obligations.AcceptedCommandsAreTheTable : Prop :=
  (∀ c i, decode c = .accept i → i.wellFormed = true ∧ encode i = c ∧ c.cmd ∈ legalWords) ∧
  (∀ w ∈ legalWords, ∃ i, i.wellFormed = true ∧ (encode i).cmd = w ∧ decode (encode i) = .accept i) ∧
  legalWords.length = 24 ∧ legalWords.Nodup ∧
  (encode .hashInitMd2).cmd = 0x00000001 ∧ (encode .hashInitMd5).cmd = 0x00000011 ∧
  (encode .hashInitSha1).cmd = 0x00000021 ∧ (encode .hashInitSha224).cmd = 0x00000031 ∧
  (encode .hashInitSha256).cmd = 0x00000041 ∧ (encode .hashInitSha384).cmd = 0x00000051 ∧
  (encode .hashInitSha512).cmd = 0x00000061 ∧ (∀ x, (encode (.hashUpdate x)).cmd = 0x00000002) ∧
  (encode .hashFinal).cmd = 0x00000003 ∧ (∀ k, (encode (.hmacInitMd2 k)).cmd = 0x00000005) ∧
  (∀ k, (encode (.hmacInitMd5 k)).cmd = 0x00000015) ∧ (∀ k, (encode (.hmacInitSha1 k)).cmd = 0x00000025) ∧
  (∀ k, (encode (.hmacInitSha224 k)).cmd = 0x00000035) ∧ (∀ k, (encode (.hmacInitSha256 k)).cmd = 0x00000045) ∧
  (∀ k, (encode (.hmacInitSha384 k)).cmd = 0x00000055) ∧ (∀ k, (encode (.hmacInitSha512 k)).cmd = 0x00000065) ∧
  (∀ x, (encode (.hmacUpdate x)).cmd = 0x00000006) ∧ (encode .hmacFinal).cmd = 0x00000007 ∧
  (∀ k t x, (encode (.tfEnc256 k t x)).cmd = 0x01000009) ∧ (∀ k t x, (encode (.tfEnc512 k t x)).cmd = 0x02000009) ∧
  (∀ k t x, (encode (.tfEnc1024 k t x)).cmd = 0x04000009) ∧ (∀ k t x, (encode (.tfDec256 k t x)).cmd = 0x01000109) ∧
  (∀ k t x, (encode (.tfDec512 k t x)).cmd = 0x02000109) ∧ (∀ k t x, (encode (.tfDec1024 k t x)).cmd = 0x04000109)

/-- A sanity statement: words of the table written out decode to the instruction they stand for (R96). -/
def Obligations.TableWordsDecode : Prop :=
  decodeTableWord 32 0x00000031 = some .hashInitSha224 ∧
  decodeTableWord 32 0x00000002 = some (.hashUpdate []) ∧
  decodeTableWord 32 0x00000065 = some (.hmacInitSha512 []) ∧
  decodeTableWord 32 0x00000007 = some .hmacFinal ∧
  decodeTableWord 32 0x01000109 = some (.tfDec256 (rep 0 32) (rep 0 16) (rep 0 32)) ∧
  decodeTableWord 32 0x00000071 = none ∧ decodeTableWord 32 0x01000209 = none

/-- `UnsupportedBlockSize` is raised exactly by a Threefish word with zero reserved bits and `ALG` and a size other than
256, 512 and 1024, whatever the operands; the response is `(1, [])` and nothing of `H` or `M` changes
(spec/60_exceptions.md R300). -/
def Obligations.UnsupportedSizeIsRaisedExactlyThere : Prop :=
  (∀ c, decode c = .reject .unsupportedBlockSize ↔
    fieldRsv c.cmd = 0 ∧ fieldOp c.cmd = 0x9 ∧ fieldAlg c.cmd = 0 ∧
      fieldBsb c.cmd ≠ 256 ∧ fieldBsb c.cmd ≠ 512 ∧ fieldBsb c.cmd ≠ 1024) ∧
  (∀ s c rest, s.inputs = .command c :: rest → decode c = .reject .unsupportedBlockSize →
    step s = .next { s with
      inputs := rest
      responses := s.responses ++ [{ status := 1, dout := [] }] })

/-- `InvalidAlgorithmSelector` is raised exactly by a `HASH_INIT` or `HMAC_INIT` word with zero reserved bits, `DIR` and
`BSB` and a tag of 7 to 15, whatever the operands; the response is `(2, [])` and nothing of `H` or `M` changes
(spec/60_exceptions.md R301). -/
def Obligations.UnrecognizedTagIsRaisedExactlyThere : Prop :=
  (∀ c, decode c = .reject .invalidAlgorithmSelector ↔
    fieldRsv c.cmd = 0 ∧ (fieldOp c.cmd = 0x1 ∨ fieldOp c.cmd = 0x5) ∧
      fieldDir c.cmd = 0 ∧ fieldBsb c.cmd = 0 ∧ 7 ≤ (fieldAlg c.cmd).toNat) ∧
  (∀ s c rest, s.inputs = .command c :: rest → decode c = .reject .invalidAlgorithmSelector →
    step s = .next { s with
      inputs := rest
      responses := s.responses ++ [{ status := 2, dout := [] }] })

/-- `IllegalCommand` is raised by every command that R99 does not decode otherwise: it is exactly the verdict on a command
that is not the encoding of a well-formed instruction and is none of the two selector errors; the decoder itself never
raises `InvalidSequence`. The response is `(4, [])` and nothing of `H` or `M` changes (spec/60_exceptions.md R304). -/
def Obligations.IllegalCommandIsEveryOtherWord : Prop :=
  (∀ c, decode c = .reject .illegalCommand ↔
    (∀ i, i.wellFormed = true → encode i ≠ c) ∧
      decode c ≠ .reject .unsupportedBlockSize ∧ decode c ≠ .reject .invalidAlgorithmSelector) ∧
  (∀ c, decode c ≠ .reject .invalidSequence) ∧
  (∀ s c rest, s.inputs = .command c :: rest → decode c = .reject .illegalCommand →
    step s = .next { s with
      inputs := rest
      responses := s.responses ++ [{ status := 4, dout := [] }] })

/-- What makes a word illegal, by the order of the decoder's checks: a reserved bit, an `OP` without a command, a field the
command does not use, an operand it does not take, a Threefish operand of the wrong length for a supported size
(R99, R305). -/
def Obligations.IllegalWordsByCause : Prop :=
  ∀ c,
    (fieldRsv c.cmd ≠ 0 → decode c = .reject .illegalCommand) ∧
    (fieldOp c.cmd ∉ [0x1, 0x2, 0x3, 0x5, 0x6, 0x7, 0x9] → decode c = .reject .illegalCommand) ∧
    (fieldOp c.cmd ∈ [0x1, 0x5] → fieldDir c.cmd ≠ 0 ∨ fieldBsb c.cmd ≠ 0 → decode c = .reject .illegalCommand) ∧
    (fieldOp c.cmd ∈ [0x2, 0x3, 0x6, 0x7] →
      fieldAlg c.cmd ≠ 0 ∨ fieldDir c.cmd ≠ 0 ∨ fieldBsb c.cmd ≠ 0 ∨ c.key ≠ [] ∨ c.tweak ≠ [] →
      decode c = .reject .illegalCommand) ∧
    (fieldOp c.cmd ∈ [0x3, 0x7] → c.data ≠ [] → decode c = .reject .illegalCommand) ∧
    (fieldOp c.cmd ∈ [0x1, 0x5] → (fieldAlg c.cmd).toNat < 7 → c.tweak ≠ [] ∨ c.data ≠ [] →
      decode c = .reject .illegalCommand) ∧
    (fieldOp c.cmd = 0x1 → (fieldAlg c.cmd).toNat < 7 → c.key ≠ [] → decode c = .reject .illegalCommand) ∧
    (fieldOp c.cmd = 0x9 → fieldAlg c.cmd ≠ 0 → decode c = .reject .illegalCommand) ∧
    (fieldOp c.cmd = 0x9 → (fieldBsb c.cmd).toNat ∈ [256, 512, 1024] →
      c.key.length ≠ (fieldBsb c.cmd).toNat / 8 ∨ c.tweak.length ≠ 16 ∨
        c.data.length ≠ (fieldBsb c.cmd).toNat / 8 →
      decode c = .reject .illegalCommand)

/-! ## The step -/

/-- A step with a decodable command at the head of the host's inputs is `exec` of that instruction on the state without
that input (R74, R99; the list of inputs is the model's own, log 1). -/
def Obligations.StepRunsTheDecodedInstruction : Prop :=
  (∀ s c rest i, s.inputs = .command c :: rest → decode c = .accept i →
    step s = exec i { s with inputs := rest }) ∧
  (∀ s i rest, i.wellFormed = true → s.inputs = .command (encode i) :: rest →
    step s = exec i { s with inputs := rest })

/-- An error leaves no trace: when the response of a step is an error, no field of `H` or `M` changed, the only new response
is `(code, [])`, and the only other change is that the command is gone (spec/60_exceptions.md R303). -/
def Obligations.ErrorsLeaveNoTrace : Prop :=
  ∀ s s' c rest r, s.inputs = .command c :: rest → step s = .next s' →
    s'.responses = s.responses ++ [r] → r.status ≠ 0 →
    s'.h = s.h ∧ s'.m = s.m ∧ s'.inputs = rest ∧ r.dout = []

/-- An error is not sticky: after a command that raised an error, the next step gives what it would have given had the
failing command not been issued, with the error response before its own (spec/60_exceptions.md R308). -/
def Obligations.ErrorsAreNotSticky : Prop :=
  ∀ (s s' : State) (c : Command) (rest : List Input) (e : CmdError), s.inputs = .command c :: rest →
    step s = .next s' → s'.responses = s.responses ++ [errorResponse e] →
    ∃ (t : State) (new : List Response), step { s with inputs := rest } = .next { t with responses := s.responses ++ new } ∧
      step s' = .next { t with responses := s.responses ++ [errorResponse e] ++ new }

/-- Every step answers a next state: every command terminates and none can hang, fault or be refused
(spec/70_reset_and_hazards.md R343; that a step without a command leaves the state is log 2). -/
def Obligations.EveryStepAnswersNext : Prop :=
  (∀ s, ∃ s', step s = .next s') ∧ (∀ i s, ∃ s', exec i s = .next s') ∧
  (∀ s, s.inputs = [] → step s = .next s)

/-- Every decoded command gives exactly one response: on success status 0 and the digest, the MAC, the transformed block or,
for the other commands, nothing, of the length the command table gives; on an error status 3 and nothing. The host's inputs
are not touched by `exec` (R93, R97). -/
def Obligations.OneResponseOfTheRightLength : Prop :=
  ∀ i s s', s.Inv → exec i s = .next s' →
    s'.inputs = s.inputs ∧
    ∃ r, s'.responses = s.responses ++ [r] ∧
      ((r.status = 3 ∧ r.dout = []) ∨
       (r.status = 0 ∧
        ((i = .hashFinal → r.dout.length = s.h.alg.digestBytes) ∧
         (i = .hmacFinal → r.dout.length = s.m.alg.digestBytes) ∧
         (∀ d z key tweak data, i = tfOf d z key tweak data → r.dout.length = z.blockBytes) ∧
         (i ≠ .hashFinal → i ≠ .hmacFinal → ¬ isThreefishCommand i → r.dout = []))))

/-- Once decoded, the only error is `InvalidSequence`, status 3 and no output, and exactly of `HASH_UPDATE` and `HASH_FINAL`
when `H.PHASE` is IDLE and of `HMAC_UPDATE` and `HMAC_FINAL` when `M.PHASE` is IDLE; every other command answers status 0
(spec/60_exceptions.md R317, R302). -/
def Obligations.ErrorsAfterDecoding : Prop :=
  ∀ i s s' r, exec i s = .next s' → s'.responses = s.responses ++ [r] →
    (r.status = 0 ∨ r = { status := 3, dout := [] }) ∧
    (r.status = 3 ↔
      (((∃ data, i = .hashUpdate data) ∨ i = .hashFinal) ∧ s.h.phase = .idle) ∨
      (((∃ data, i = .hmacUpdate data) ∨ i = .hmacFinal) ∧ s.m.phase = .idle))

/-- `InvalidSequence`: the four commands on an idle context answer status 3 and no output and change nothing of `H` or `M`
(spec/60_exceptions.md R302). -/
def Obligations.IdleContextsRaiseInvalidSequence : Prop :=
  (∀ data s, s.h.phase = .idle →
    exec (.hashUpdate data) s = .next { s with responses := s.responses ++ [{ status := 3, dout := [] }] }) ∧
  (∀ s, s.h.phase = .idle →
    exec .hashFinal s = .next { s with responses := s.responses ++ [{ status := 3, dout := [] }] }) ∧
  (∀ data s, s.m.phase = .idle →
    exec (.hmacUpdate data) s = .next { s with responses := s.responses ++ [{ status := 3, dout := [] }] }) ∧
  (∀ s, s.m.phase = .idle →
    exec .hmacFinal s = .next { s with responses := s.responses ++ [{ status := 3, dout := [] }] })

/-! ## Reset -/

/-- The state after reset: the three `PHASE` fields IDLE, every other field of `H` and `M` zero or empty
(spec/10_state.md R39). That nothing has been issued or answered is log 1. -/
def Obligations.ResetIsAllZeroAndIdle : Prop :=
  State.reset.h.phase = .idle ∧ State.reset.m.phase = .idle ∧ State.reset.m.h.phase = .idle ∧
  State.reset.h.alg.tag = 0 ∧ State.reset.m.alg.tag = 0 ∧ State.reset.m.h.alg.tag = 0 ∧
  State.reset.h.s = .md2 { x := List.replicate 16 0, c := List.replicate 16 0 } ∧
  State.reset.m.h.s = .md2 { x := List.replicate 16 0, c := List.replicate 16 0 } ∧
  State.reset.h.pending = [] ∧ State.reset.m.h.pending = [] ∧
  State.reset.h.totalLen = 0 ∧ State.reset.m.h.totalLen = 0 ∧
  (∀ b ∈ State.reset.m.k, b = 0) ∧
  State.reset.inputs = [] ∧ State.reset.responses = []

/-- A reset puts every field of `H` and `M` at its reset value and answers nothing, whatever was in progress
(spec/70_reset_and_hazards.md R330; that it arrives as an input of its own is log 3). -/
def Obligations.ResetInputRestoresTheResetState : Prop :=
  ∀ s rest, s.inputs = .reset :: rest →
    step s = .next { State.reset with inputs := rest, responses := s.responses }

/-! ## Hash commands -/

/-- `HASH_INIT.<alg>` in either phase: `H` becomes ACTIVE with the algorithm's published constants, `pending` empty and
`total_len` zero, and nothing else changes (R122, with the values of R150, R170, R190, R210, R211, R230, R231). -/
def Obligations.HashInitLoadsTheConstants : Prop :=
  ∀ s : State,
    let started : HashRegs → Out := fun iv => .next { s with
      h := { phase := .active, s := iv, pending := [], totalLen := 0 }
      responses := s.responses ++ [{ status := 0, dout := [] }] }
    exec .hashInitMd2 s = started (.md2 { x := List.replicate 16 0, c := List.replicate 16 0 }) ∧
    exec .hashInitMd5 s = started (.md5 { a := 0x67452301, b := 0xEFCDAB89, c := 0x98BADCFE, d := 0x10325476 }) ∧
    exec .hashInitSha1 s = started
      (.sha1 { a := 0x67452301, b := 0xEFCDAB89, c := 0x98BADCFE, d := 0x10325476, e := 0xC3D2E1F0 }) ∧
    exec .hashInitSha224 s = started
      (.sha224 ⟨0xc1059ed8, 0x367cd507, 0x3070dd17, 0xf70e5939, 0xffc00b31, 0x68581511, 0x64f98fa7, 0xbefa4fa4⟩) ∧
    exec .hashInitSha256 s = started
      (.sha256 ⟨0x6a09e667, 0xbb67ae85, 0x3c6ef372, 0xa54ff53a, 0x510e527f, 0x9b05688c, 0x1f83d9ab, 0x5be0cd19⟩) ∧
    exec .hashInitSha384 s = started
      (.sha384 ⟨0xcbbb9d5dc1059ed8, 0x629a292a367cd507, 0x9159015a3070dd17, 0x152fecd8f70e5939,
        0x67332667ffc00b31, 0x8eb44a8768581511, 0xdb0c2e0d64f98fa7, 0x47b5481dbefa4fa4⟩) ∧
    exec .hashInitSha512 s = started
      (.sha512 ⟨0x6a09e667f3bcc908, 0xbb67ae8584caa73b, 0x3c6ef372fe94f82b, 0xa54ff53a5f1d36f1,
        0x510e527fade682d1, 0x9b05688c2b3e6c1f, 0x1f83d9abfb41bd6b, 0x5be0cd19137e2179⟩)

/-- `HASH_UPDATE(DATA)` on an ACTIVE context: the full blocks of `pending ++ DATA` are compressed in stream order, what is
left of it waits in `pending`, `total_len` advances modulo 2^64, and nothing else changes (R124, R131; spec/10_state.md
R30, R31). -/
def Obligations.HashUpdateCompressesTheFullBlocks : Prop :=
  ∀ s data, s.h.phase = .active → s.h.pending.length < s.h.alg.blockBytes →
    exec (.hashUpdate data) s = .next { s with
      h := { phase := .active,
             s := compressAll s.h.s (s.h.pending ++ data),
             pending := afterBlocks s.h.alg.blockBytes (s.h.pending ++ data),
             totalLen := s.h.totalLen + BitVec.ofNat 64 data.length }
      responses := s.responses ++ [{ status := 0, dout := [] }] }

/-- `HASH_FINAL` on an ACTIVE context: the output is the digest of what the context holds, `H` is wiped, and nothing else
changes (R126, R127, R128, with the digest encodings and the MD2 finish). -/
def Obligations.HashFinalAnswersTheDigestAndWipes : Prop :=
  ∀ s, s.h.phase = .active → s.h.pending.length < s.h.alg.blockBytes →
    exec .hashFinal s = .next { s with
      h := { phase := .idle, s := .md2 { x := rep 0 16, c := rep 0 16 }, pending := [], totalLen := 0 }
      responses := s.responses ++ [{ status := 0, dout := digestFrom s.h.s s.h.pending s.h.totalLen }] }

/-- The digest encodings: little-endian words for MD5, big-endian for SHA-1 and SHA-2, the truncated variants with
fewer words, and the sixteen bytes of `X` for MD2 (R154, R175, R195, R216, R217, R236, R237). -/
def Obligations.DigestEncodingsByUnit : Prop :=
  (∀ x c, encodeDigest (.md2 { x := x, c := c }) = x) ∧
  (∀ a b c d, encodeDigest (.md5 { a := a, b := b, c := c, d := d }) =
    leBytes a ++ leBytes b ++ leBytes c ++ leBytes d) ∧
  (∀ a b c d e, encodeDigest (.sha1 { a := a, b := b, c := c, d := d, e := e }) =
    beBytes a ++ beBytes b ++ beBytes c ++ beBytes d ++ beBytes e) ∧
  (∀ a b c d e f g h,
    encodeDigest (.sha224 ⟨a, b, c, d, e, f, g, h⟩) =
      beBytes a ++ beBytes b ++ beBytes c ++ beBytes d ++ beBytes e ++ beBytes f ++ beBytes g ∧
    encodeDigest (.sha256 ⟨a, b, c, d, e, f, g, h⟩) =
      beBytes a ++ beBytes b ++ beBytes c ++ beBytes d ++ beBytes e ++ beBytes f ++ beBytes g ++ beBytes h) ∧
  (∀ a b c d e f g h,
    encodeDigest (.sha384 ⟨a, b, c, d, e, f, g, h⟩) =
      beBytes a ++ beBytes b ++ beBytes c ++ beBytes d ++ beBytes e ++ beBytes f ∧
    encodeDigest (.sha512 ⟨a, b, c, d, e, f, g, h⟩) =
      beBytes a ++ beBytes b ++ beBytes c ++ beBytes d ++ beBytes e ++ beBytes f ++ beBytes g ++ beBytes h)

/-- Chunking invariance: feeding pieces through successive updates leaves the same context as one update of all of them,
wherever the pieces are cut, empty pieces included; and from a fresh context `total_len`, `pending` and `s` after the
pieces are those of the whole string (R131). -/
def Obligations.ChunkingInvariance : Prop :=
  (∀ (pieces : List Bytes) (c : HashCtx), c.pending.length < c.alg.blockBytes →
    pieces.foldl absorb c = absorb c pieces.flatten) ∧
  (∀ (a : Alg) (pieces : List Bytes),
    pieces.foldl absorb (ctxInit a) =
      { phase := .active,
        s := compressAll (ivOf a) pieces.flatten,
        pending := afterBlocks a.blockBytes pieces.flatten,
        totalLen := BitVec.ofNat 64 pieces.flatten.length })

/-- The whole stream of commands computes the digest of the message, however it is cut: from any state, `HASH_INIT.<alg>`,
one `HASH_UPDATE` per piece, `HASH_FINAL`, all issued as command words, run to the end, answer empty responses and then
the digest of the concatenation, and leave `H` wiped, `M` and the later inputs as they were (R103, R131). -/
def Obligations.StreamOfCommandsAnswersTheMessageDigest : Prop :=
  ∀ (a : Alg) (pieces : List Bytes) (s : State) (rest : List Input),
    Host.Core.run Sys2Proof.core (pieces.length + 2)
      (s.issue ((hashInitOf a :: pieces.map Instr.hashUpdate ++ [Instr.hashFinal]).map encode) rest) =
    .next { s with
      h := HashCtx.wiped
      inputs := rest
      responses := s.responses ++ List.replicate (pieces.length + 1) (okResponse []) ++
        [okResponse (messageDigest a pieces.flatten)] }

/-- Lengths wrap silently: 2^61 bytes more in the counter give the same length field and the same digest, and `HASH_FINAL`
answers that digest with status 0 either way, so no error is raised (R132); MD2 has no length field and does not read the
counter at all (spec/41_md2.md R154). -/
def Obligations.LengthFieldWrapsAtTwoToThe61 : Prop :=
  (∀ t : W64, bitLength t = t * 8) ∧
  (∀ (a : Alg) (t : W64), lengthField a (t + 0x2000000000000000) = lengthField a t) ∧
  (∀ c : HashCtx, finishDigest { c with totalLen := c.totalLen + 0x2000000000000000 } = finishDigest c) ∧
  (∀ s : State, s.h.phase = .active → ∃ (t : State) (d : Bytes),
    exec .hashFinal s = .next t ∧ t.responses = s.responses ++ [{ status := 0, dout := d }] ∧
    exec .hashFinal { s with h := { s.h with totalLen := s.h.totalLen + 0x2000000000000000 } } = .next t) ∧
  (∀ (c : HashCtx) (t : W64), c.alg = .md2 → finishDigest { c with totalLen := t } = finishDigest c)

/-- The length field by unit: 8 bytes little-endian for MD5, 8 bytes big-endian for SHA-1, SHA-2-224 and SHA-2-256, and for
SHA-2-384 and SHA-2-512 16 bytes of which the first eight are zero; the number in it is the bit count modulo 2^64
(R127; spec/45_sha2_64.md R238). -/
def Obligations.LengthFieldHoldsTheBitCount : Prop :=
  ∀ t : W64,
    ((lengthField .md5 t).length = 8 ∧ natOfLe (lengthField .md5 t) = (8 * t.toNat) % 2 ^ 64) ∧
    (∀ a ∈ [Alg.sha1, .sha224, .sha256],
      (lengthField a t).length = 8 ∧ natOfLe (lengthField a t).reverse = (8 * t.toNat) % 2 ^ 64) ∧
    (∀ a ∈ [Alg.sha384, .sha512],
      (lengthField a t).length = 16 ∧ (lengthField a t).take 8 = rep 0 8 ∧
        natOfLe ((lengthField a t).drop 8).reverse = (8 * t.toNat) % 2 ^ 64)

/-- The padded tail is `pending`, the byte `0x80`, zeros and the length field, and is one block long when the field still
fits behind `pending`, two blocks otherwise (R127). -/
def Obligations.PaddedTailIsOneOrTwoBlocks : Prop :=
  ∀ c : HashCtx, c.alg ≠ .md2 → c.pending.length < c.alg.blockBytes →
    (∃ z, padMd c = c.pending ++ [0x80] ++ rep 0 z ++ lengthField c.alg c.totalLen) ∧
    (c.pending.length ≤ c.alg.blockBytes - c.alg.lengthFieldBytes - 1 →
      (padMd c).length = c.alg.blockBytes) ∧
    (c.alg.blockBytes - c.alg.lengthFieldBytes - 1 < c.pending.length →
      (padMd c).length = 2 * c.alg.blockBytes)

/-- The number of compression invocations for a message of `n` bytes. In every unit but MD2 the full blocks in the updates
and the blocks of the tail in `HASH_FINAL` are together `floor((n + F) / B) + 1`. In every unit the digest is that of
compressing so many blocks from the IV, for MD2 `floor(n / 16) + 2`; the first `floor(n / B)` of them are the message's full
blocks, compressed in the updates. For MD2 the two others are the pad block and the checksum block (R129; spec/41_md2.md
R155). -/
def Obligations.InvocationsPerMessage : Prop :=
  (∀ (a : Alg) (x : Bytes), a ≠ .md2 →
    (fullBlocks a.blockBytes x).length + (padMd (absorb (ctxInit a) x)).length / a.blockBytes =
      (x.length + a.lengthFieldBytes) / a.blockBytes + 1) ∧
  (∀ (a : Alg) (x : Bytes), ∃ tail : List Bytes,
    (fullBlocks a.blockBytes x).length = x.length / a.blockBytes ∧
    x.length / a.blockBytes + tail.length =
      (if a = .md2 then x.length / 16 + 2 else (x.length + a.lengthFieldBytes) / a.blockBytes + 1) ∧
    (∀ b ∈ fullBlocks a.blockBytes x ++ tail, b.length = a.blockBytes) ∧
    (absorb (ctxInit a) x).s = (fullBlocks a.blockBytes x).foldl compress (ivOf a) ∧
    finishDigest (absorb (ctxInit a) x) = encodeDigest (tail.foldl compress (absorb (ctxInit a) x).s)) ∧
  (∀ (x : Bytes) (r : Md2Regs), (absorb (ctxInit .md2) x).s = .md2 r →
    let p := 16 - x.length % 16
    let pad := afterBlocks 16 x ++ rep (BitVec.ofNat 8 p) p
    finishDigest (absorb (ctxInit .md2) x) =
      encodeDigest ([pad, (md2Compress r pad).c].foldl compress (.md2 r)))

/-! ## Compression units -/

/-- The MD2 substitution table is a permutation of the byte values (spec/41_md2.md R151). -/
def Obligations.Md2TableIsAPermutation : Prop :=
  (∀ x y : Byte, md2S x = md2S y → x = y) ∧ (∀ y : Byte, ∃ x, md2S x = y)

/-- The MD2 checksum: byte `j` is XORed with the table entry of the block byte and the checksum byte before it, the one
before byte 0 being the previous block's last; and an invocation keeps the registers' lengths (spec/41_md2.md R152). -/
def Obligations.Md2ChecksumRecurrence : Prop :=
  ∀ (r : Md2Regs) (blk : Bytes), r.x.length = 16 → r.c.length = 16 → blk.length = 16 →
    (md2Compress r blk).x.length = 16 ∧ (md2Compress r blk).c.length = 16 ∧
    (md2Compress r blk).c.getD 0 0 = r.c.getD 0 0 ^^^ md2S (blk.getD 0 0 ^^^ r.c.getD 15 0) ∧
    (∀ j, j < 15 →
      (md2Compress r blk).c.getD (j + 1) 0 =
        r.c.getD (j + 1) 0 ^^^ md2S (blk.getD (j + 1) 0 ^^^ (md2Compress r blk).c.getD j 0))

/-- The MD2 digest registers of an invocation: 18 passes over the 48 bytes of old state, block and their XOR, each byte
XORed with the table entry of the running byte, which takes the byte's new value and between passes advances by the pass
number modulo 256; the first sixteen bytes are kept. Byte `k` of the buffer before pass `j` is `buf j k`, the running byte
there `run j k` (spec/41_md2.md R152). -/
def Obligations.Md2DigestRegistersByPasses : Prop :=
  ∀ (r : Md2Regs) (blk : Bytes), r.x.length = 16 → blk.length = 16 →
    ∃ (buf run : Nat → Nat → Byte),
      (∀ k, k < 16 → buf 0 k = r.x.getD k 0 ∧ buf 0 (16 + k) = blk.getD k 0 ∧
        buf 0 (32 + k) = r.x.getD k 0 ^^^ blk.getD k 0) ∧
      run 0 0 = 0 ∧
      (∀ j k, j < 18 → k < 48 → buf (j + 1) k = buf j k ^^^ md2S (run j k) ∧ run j (k + 1) = buf (j + 1) k) ∧
      (∀ j, j < 17 → run (j + 1) 0 = run j 48 + BitVec.ofNat 8 j) ∧
      (md2Compress r blk).x.length = 16 ∧ ∀ k, k < 16 → (md2Compress r blk).x.getD k 0 = buf 18 k

/-- The MD5 compression function: 64 steps from the old state, four rounds of sixteen with their boolean functions, word
orders and rotations, on the sixteen little-endian words of the block, and the final additions (spec/42_md5.md R172,
R173, with the index formulas of R171). -/
def Obligations.Md5CompressBySteps : Prop :=
  ∀ (s : Md5Regs) (blk : Bytes), ∃ v : Nat → Md5Regs,
    v 0 = s ∧
    (∀ i, i < 64 →
      let x := (v i).b
      let y := (v i).c
      let z := (v i).d
      let f := if i < 16 then (x &&& y) ||| (~~~x &&& z) else if i < 32 then (x &&& z) ||| (y &&& ~~~z)
        else if i < 48 then x ^^^ y ^^^ z else y ^^^ (x ||| ~~~z)
      let g := if i < 16 then i else if i < 32 then (5 * i + 1) % 16 else if i < 48 then (3 * i + 5) % 16
        else (7 * i) % 16
      let r := if i < 16 then [7, 12, 17, 22].getD (i % 4) 0 else if i < 32 then [5, 9, 14, 20].getD (i % 4) 0
        else if i < 48 then [4, 11, 16, 23].getD (i % 4) 0 else [6, 10, 15, 21].getD (i % 4) 0
      let tmp := (v i).a + f + md5K.getD i 0 + leWord 32 ((blk.drop (4 * g)).take 4)
      v (i + 1) = { a := z, b := x + rotl tmp r, c := x, d := y }) ∧
    md5Compress s blk =
      { a := s.a + (v 64).a, b := s.b + (v 64).b, c := s.c + (v 64).c, d := s.d + (v 64).d }

/-- The SHA-1 message schedule: sixteen big-endian words, then the recurrence with its rotation by 1 (spec/43_sha1.md
R193). -/
def Obligations.Sha1ScheduleRecurrence : Prop :=
  ∀ blk : Bytes,
    (sha1Schedule blk).length = 80 ∧
    (∀ t, t < 16 → (sha1Schedule blk).getD t 0 = beWord 32 ((blk.drop (4 * t)).take 4)) ∧
    (∀ t, 16 ≤ t → t < 80 →
      (sha1Schedule blk).getD t 0 =
        rotl ((sha1Schedule blk).getD (t - 3) 0 ^^^ (sha1Schedule blk).getD (t - 8) 0 ^^^
          (sha1Schedule blk).getD (t - 14) 0 ^^^ (sha1Schedule blk).getD (t - 16) 0) 1)

/-- The SHA-1 compression function: 80 steps from the old state, four rounds of twenty with their functions and constants,
and the final additions (spec/43_sha1.md R191, R193). -/
def Obligations.Sha1CompressBySteps : Prop :=
  ∀ (s : Sha1Regs) (blk : Bytes), ∃ v : Nat → Sha1Regs,
    v 0 = s ∧
    (∀ t, t < 80 →
      let b := (v t).b
      let c := (v t).c
      let d := (v t).d
      let f := if t < 20 then (b &&& c) ||| (~~~b &&& d) else if t < 40 then b ^^^ c ^^^ d
        else if t < 60 then (b &&& c) ||| (b &&& d) ||| (c &&& d) else b ^^^ c ^^^ d
      let k : W32 := if t < 20 then 0x5A827999 else if t < 40 then 0x6ED9EBA1
        else if t < 60 then 0x8F1BBCDC else 0xCA62C1D6
      v (t + 1) =
        { a := rotl (v t).a 5 + f + (v t).e + k + (sha1Schedule blk).getD t 0,
          b := (v t).a, c := rotl b 30, d := c, e := d }) ∧
    sha1Compress s blk =
      { a := s.a + (v 80).a, b := s.b + (v 80).b, c := s.c + (v 80).c, d := s.d + (v 80).d, e := s.e + (v 80).e }

/-- The SHA-2 message schedules: sixteen big-endian words, then the recurrence over the offsets -2, -7, -15, -16, to 64
words of 32 bits or 80 words of 64 bits, the two small sigma functions by their rotations and shift (spec/44_sha2_32.md
R213, R214; spec/45_sha2_64.md R233, R234). -/
def Obligations.Sha2ScheduleRecurrence : Prop :=
  ∀ blk : Bytes,
    (sha2W32Schedule blk).length = 64 ∧ (sha2W64Schedule blk).length = 80 ∧
    (∀ t, t < 16 →
      (sha2W32Schedule blk).getD t 0 = beWord 32 ((blk.drop (4 * t)).take 4) ∧
      (sha2W64Schedule blk).getD t 0 = beWord 64 ((blk.drop (8 * t)).take 8)) ∧
    (∀ t, 16 ≤ t → t < 64 →
      let x := (sha2W32Schedule blk).getD (t - 2) 0
      let y := (sha2W32Schedule blk).getD (t - 15) 0
      (sha2W32Schedule blk).getD t 0 =
        (rotr x 17 ^^^ rotr x 19 ^^^ shr x 10) + (sha2W32Schedule blk).getD (t - 7) 0 +
          (rotr y 7 ^^^ rotr y 18 ^^^ shr y 3) + (sha2W32Schedule blk).getD (t - 16) 0) ∧
    (∀ t, 16 ≤ t → t < 80 →
      let x := (sha2W64Schedule blk).getD (t - 2) 0
      let y := (sha2W64Schedule blk).getD (t - 15) 0
      (sha2W64Schedule blk).getD t 0 =
        (rotr x 19 ^^^ rotr x 61 ^^^ shr x 6) + (sha2W64Schedule blk).getD (t - 7) 0 +
          (rotr y 1 ^^^ rotr y 8 ^^^ shr y 7) + (sha2W64Schedule blk).getD (t - 16) 0)

/-- The SHA-2 compression functions: 64 rounds on 32-bit words or 80 on 64-bit words, with the round constants and the
schedule, the sigma functions by their rotations, and the final additions; the same for both algorithms of a width
(spec/44_sha2_32.md R213, R214; spec/45_sha2_64.md R233, R234). -/
def Obligations.Sha2CompressByRounds : Prop :=
  (∀ (s : Sha2Regs 32) (blk : Bytes), ∃ v : Nat → Sha2Regs 32,
    v 0 = s ∧
    (∀ t, t < 64 →
      let u := v t
      let t1 := u.h + (rotr u.e 6 ^^^ rotr u.e 11 ^^^ rotr u.e 25) + ((u.e &&& u.f) ^^^ (~~~u.e &&& u.g)) +
        sha256K.getD t 0 + (sha2W32Schedule blk).getD t 0
      let t2 := (rotr u.a 2 ^^^ rotr u.a 13 ^^^ rotr u.a 22) + ((u.a &&& u.b) ^^^ (u.a &&& u.c) ^^^ (u.b &&& u.c))
      v (t + 1) = ⟨t1 + t2, u.a, u.b, u.c, u.d + t1, u.e, u.f, u.g⟩) ∧
    compress (.sha224 s) blk = .sha224
      { a := s.a + (v 64).a, b := s.b + (v 64).b, c := s.c + (v 64).c, d := s.d + (v 64).d,
        e := s.e + (v 64).e, f := s.f + (v 64).f, g := s.g + (v 64).g, h := s.h + (v 64).h } ∧
    compress (.sha256 s) blk = .sha256
      { a := s.a + (v 64).a, b := s.b + (v 64).b, c := s.c + (v 64).c, d := s.d + (v 64).d,
        e := s.e + (v 64).e, f := s.f + (v 64).f, g := s.g + (v 64).g, h := s.h + (v 64).h }) ∧
  (∀ (s : Sha2Regs 64) (blk : Bytes), ∃ v : Nat → Sha2Regs 64,
    v 0 = s ∧
    (∀ t, t < 80 →
      let u := v t
      let t1 := u.h + (rotr u.e 14 ^^^ rotr u.e 18 ^^^ rotr u.e 41) + ((u.e &&& u.f) ^^^ (~~~u.e &&& u.g)) +
        sha512K.getD t 0 + (sha2W64Schedule blk).getD t 0
      let t2 := (rotr u.a 28 ^^^ rotr u.a 34 ^^^ rotr u.a 39) + ((u.a &&& u.b) ^^^ (u.a &&& u.c) ^^^ (u.b &&& u.c))
      v (t + 1) = ⟨t1 + t2, u.a, u.b, u.c, u.d + t1, u.e, u.f, u.g⟩) ∧
    compress (.sha384 s) blk = .sha384
      { a := s.a + (v 80).a, b := s.b + (v 80).b, c := s.c + (v 80).c, d := s.d + (v 80).d,
        e := s.e + (v 80).e, f := s.f + (v 80).f, g := s.g + (v 80).g, h := s.h + (v 80).h } ∧
    compress (.sha512 s) blk = .sha512
      { a := s.a + (v 80).a, b := s.b + (v 80).b, c := s.c + (v 80).c, d := s.d + (v 80).d,
        e := s.e + (v 80).e, f := s.f + (v 80).f, g := s.g + (v 80).g, h := s.h + (v 80).h })

/-- The high 32 bits of a 64-bit round constant are the 32-bit round constant of the same index
(spec/45_sha2_64.md R232). -/
def Obligations.Sha512ConstantsExtendSha256Constants : Prop :=
  sha256K.length = 64 ∧ sha512K.length = 80 ∧
  ∀ i, i < 64 → (sha512K.getD i 0).extractLsb' 32 32 = sha256K.getD i 0

/-! ## Bytes and words -/

/-- The byte-order primitives: the little- and big-endian numbers of four and of eight bytes, and the inverses, the strings
whose decode is the word (spec/00_scope.md R14). -/
def Obligations.ByteOrderPrimitives : Prop :=
  (∀ b0 b1 b2 b3 : Byte,
    (leWord 32 [b0, b1, b2, b3]).toNat =
      b0.toNat + 2 ^ 8 * b1.toNat + 2 ^ 16 * b2.toNat + 2 ^ 24 * b3.toNat ∧
    (beWord 32 [b0, b1, b2, b3]).toNat =
      2 ^ 24 * b0.toNat + 2 ^ 16 * b1.toNat + 2 ^ 8 * b2.toNat + b3.toNat) ∧
  (∀ b0 b1 b2 b3 b4 b5 b6 b7 : Byte,
    (leWord 64 [b0, b1, b2, b3, b4, b5, b6, b7]).toNat =
      b0.toNat + 2 ^ 8 * b1.toNat + 2 ^ 16 * b2.toNat + 2 ^ 24 * b3.toNat +
        2 ^ 32 * b4.toNat + 2 ^ 40 * b5.toNat + 2 ^ 48 * b6.toNat + 2 ^ 56 * b7.toNat ∧
    (beWord 64 [b0, b1, b2, b3, b4, b5, b6, b7]).toNat =
      2 ^ 56 * b0.toNat + 2 ^ 48 * b1.toNat + 2 ^ 40 * b2.toNat + 2 ^ 32 * b3.toNat +
        2 ^ 24 * b4.toNat + 2 ^ 16 * b5.toNat + 2 ^ 8 * b6.toNat + b7.toNat) ∧
  (∀ x : W32, (leBytes x).length = 4 ∧ (beBytes x).length = 4 ∧
    leWord 32 (leBytes x) = x ∧ beWord 32 (beBytes x) = x) ∧
  (∀ x : W64, (leBytes x).length = 8 ∧ (beBytes x).length = 8 ∧
    leWord 64 (leBytes x) = x ∧ beWord 64 (beBytes x) = x) ∧
  (∀ b : Bytes, b.length = 4 → leBytes (leWord 32 b) = b ∧ beBytes (beWord 32 b) = b) ∧
  (∀ b : Bytes, b.length = 8 → leBytes (leWord 64 b) = b ∧ beBytes (beWord 64 b) = b)

/-- The word operators by their formulas, at every width: addition, subtraction, complement, both rotations and the logical
shift as integers, the three boolean operators bit by bit; and the rotations undo one another (spec/00_scope.md R13). -/
def Obligations.WordOperatorsByTheirFormulas : Prop :=
  ∀ (w : Nat) (a b : BitVec w),
    (a + b).toNat = (a.toNat + b.toNat) % 2 ^ w ∧
    (a - b).toNat = (a.toNat + 2 ^ w - b.toNat) % 2 ^ w ∧
    (∀ i, (a ^^^ b).getLsbD i = (a.getLsbD i != b.getLsbD i) ∧ (a &&& b).getLsbD i = (a.getLsbD i && b.getLsbD i) ∧
      (a ||| b).getLsbD i = (a.getLsbD i || b.getLsbD i)) ∧
    (~~~a).toNat = 2 ^ w - 1 - a.toNat ∧
    (∀ r, 0 < r → r < w → (rotl a r).toNat = (a.toNat * 2 ^ r) % 2 ^ w + a.toNat / 2 ^ (w - r)) ∧
    rotl a 0 = a ∧
    (∀ r, rotr a r = rotl a ((w - r) % w)) ∧
    (∀ r, (shr a r).toNat = a.toNat / 2 ^ r) ∧
    (∀ r, r < w → rotr (rotl a r) r = a ∧ rotl (rotr a r) r = a)

/-! ## HMAC commands -/

/-- `HMAC_INIT.<alg>(KEY)` in either phase, with any key: the key derived from a key longer than the block is its digest,
and in every case zeros fill the block; `M` becomes ACTIVE with the derived key, `M.H` having absorbed the key XORed with
`0x36` as exactly one block, and nothing else changes (R250, R251). -/
def Obligations.HmacInitDerivesTheKey : Prop :=
  ∀ (a : Alg) (key : Bytes) (s : State),
    (derivedKey a key).length = a.blockBytes ∧
    (a.blockBytes < key.length →
      derivedKey a key = messageDigest a key ++ rep 0 (a.blockBytes - (messageDigest a key).length)) ∧
    (key.length ≤ a.blockBytes → derivedKey a key = key ++ rep 0 (a.blockBytes - key.length)) ∧
    exec (hmacInitOf a key) s = .next { s with
      m := { phase := .active, alg := a, k := derivedKey a key,
             h := { phase := .active,
                    s := compress (ivOf a) ((derivedKey a key).map (fun b => b ^^^ 0x36)),
                    pending := [],
                    totalLen := BitVec.ofNat 64 a.blockBytes } }
      responses := s.responses ++ [{ status := 0, dout := [] }] }

/-- `HMAC_UPDATE(DATA)` while ACTIVE forwards to the wrapped engine: `M.H` absorbs `DATA`, `M.K` is not touched, and
nothing else changes (R252). -/
def Obligations.HmacUpdateForwardsToTheEngine : Prop :=
  ∀ s data, s.m.phase = .active → s.m.h.pending.length < s.m.h.alg.blockBytes →
    exec (.hmacUpdate data) s = .next { s with
      m := { s.m with
        h := { phase := s.m.h.phase,
               s := compressAll s.m.h.s (s.m.h.pending ++ data),
               pending := afterBlocks s.m.h.alg.blockBytes (s.m.h.pending ++ data),
               totalLen := s.m.h.totalLen + BitVec.ofNat 64 data.length } }
      responses := s.responses ++ [{ status := 0, dout := [] }] }

/-- `HMAC_FINAL` while ACTIVE: the MAC is the digest of the key XORed with `0x5C` followed by the inner digest, all of `M`
is wiped, and nothing else changes (R253). -/
def Obligations.HmacFinalAnswersTheMacAndWipes : Prop :=
  ∀ s, s.m.WF → s.m.phase = .active →
    exec .hmacFinal s = .next { s with
      m := { phase := .idle, alg := .md2, k := rep 0 16,
             h := { phase := .idle, s := .md2 { x := rep 0 16, c := rep 0 16 }, pending := [], totalLen := 0 } }
      responses := s.responses ++
        [{ status := 0,
           dout := messageDigest s.m.alg
             (s.m.k.map (fun b => b ^^^ 0x5C) ++ digestFrom s.m.h.s s.m.h.pending s.m.h.totalLen) }] }

/-- The three HMAC commands compute the RFC 2104 construction: for any key and any message in any chunking, issued as
command words from any state and run to the end, they answer
`Hash((K0 xor 0x5C..) ++ Hash((K0 xor 0x36..) ++ message))`, and leave `M` wiped, `H` and the later inputs as they were
(R261). -/
def Obligations.StreamOfHmacCommandsAnswersTheMac : Prop :=
  ∀ (a : Alg) (key : Bytes) (pieces : List Bytes) (s : State) (rest : List Input),
    Host.Core.run Sys2Proof.core (pieces.length + 2)
      (s.issue ((hmacInitOf a key :: pieces.map Instr.hmacUpdate ++ [Instr.hmacFinal]).map encode) rest) =
    .next { s with
      m := HmacCtx.wiped
      inputs := rest
      responses := s.responses ++ List.replicate (pieces.length + 1) (okResponse []) ++
        [okResponse (messageMac a key pieces.flatten)] }

/-- The key-length branches: a key longer than the block and its digest start the same MAC; a key shorter than the block
and the same key with a zero byte behind it do too; a key of exactly `B` bytes is used as it is: the command stores it
unchanged (R262, R250). -/
def Obligations.HmacKeyLengthBranches : Prop :=
  ∀ (a : Alg) (key : Bytes) (s : State),
    (a.blockBytes < key.length → exec (hmacInitOf a key) s = exec (hmacInitOf a (messageDigest a key)) s) ∧
    (key.length < a.blockBytes → exec (hmacInitOf a key) s = exec (hmacInitOf a (key ++ [0])) s) ∧
    (key.length = a.blockBytes → derivedKey a key = key ∧
      ∃ t, exec (hmacInitOf a key) s = .next t ∧ t.m.k = key)

/-- The derived key is computed once and never mutated after it: only `HMAC_INIT` and `HMAC_FINAL` change `M.K`, and
`HMAC_FINAL` leaves only zero bytes in it (spec/10_state.md R33). -/
def Obligations.DerivedKeyIsNeverMutated : Prop :=
  (∀ i s s', exec i s = .next s' → (∀ a key, i ≠ hmacInitOf a key) → i ≠ .hmacFinal → s'.m.k = s.m.k) ∧
  (∀ s s', exec .hmacFinal s = .next s' → s.m.phase = .active → ∀ b ∈ s'.m.k, b = 0)

/-! ## Threefish commands -/

/-- `TF_ENC.<bits>` and `TF_DEC.<bits>`: the operand words are little-endian, the key schedule gets its parity word and the
tweak its third word, the block is transformed, and the output is its little-endian bytes; nothing of `H` or `M` is read
or written. Operands of the lengths the command takes are the bytes of such words, so this covers them all (R276, R271,
R272, R280, R281). -/
def Obligations.ThreefishTransformsTheBlock : Prop :=
  (∀ (z : TfSize) (kw v : List W64) (t0 t1 : W64) (s : State), kw.length = z.words → v.length = z.words →
    exec (tfOf .encrypt z (bytesOfLeWords kw) (bytesOfLeWords [t0, t1]) (bytesOfLeWords v)) s =
      .next { s with
        responses := s.responses ++
          [{ status := 0,
             dout := bytesOfLeWords
               (tfEncryptWords z (kw ++ [kw.foldl (· ^^^ ·) 0x1BD11BDAA9FC1A22]) [t0, t1, t0 ^^^ t1] v) }] } ∧
    exec (tfOf .decrypt z (bytesOfLeWords kw) (bytesOfLeWords [t0, t1]) (bytesOfLeWords v)) s =
      .next { s with
        responses := s.responses ++
          [{ status := 0,
             dout := bytesOfLeWords
               (tfDecryptWords z (kw ++ [kw.foldl (· ^^^ ·) 0x1BD11BDAA9FC1A22]) [t0, t1, t0 ^^^ t1] v) }] }) ∧
  (∀ (z : TfSize) (key tweak data : Bytes), tfOperandsFit z key tweak data = true →
    ∃ (kw v : List W64) (t0 t1 : W64), kw.length = z.words ∧ v.length = z.words ∧
      key = bytesOfLeWords kw ∧ tweak = bytesOfLeWords [t0, t1] ∧ data = bytesOfLeWords v)

/-- Threefish round trip: on words `DECRYPT_N` undoes `ENCRYPT_N` and `ENCRYPT_N` undoes `DECRYPT_N` for every key schedule
and tweak schedule; and as commands, for every size, key, tweak and block of the right lengths, decrypting what encrypting
answered answers the block, and the other way round (R290). -/
def Obligations.ThreefishRoundTrip : Prop :=
  (∀ (z : TfSize) (k t v : List W64), v.length = z.words →
    tfDecryptWords z k t (tfEncryptWords z k t v) = v ∧ tfEncryptWords z k t (tfDecryptWords z k t v) = v) ∧
  ∀ (z : TfSize) (key tweak data : Bytes) (s : State), tfOperandsFit z key tweak data = true →
    (∃ out, exec (tfOf .encrypt z key tweak data) s =
        .next { s with responses := s.responses ++ [okResponse out] } ∧
      tfOperandsFit z key tweak out = true ∧
      ∀ t, exec (tfOf .decrypt z key tweak out) t =
        .next { t with responses := t.responses ++ [okResponse data] }) ∧
    (∃ out, exec (tfOf .decrypt z key tweak data) s =
        .next { s with responses := s.responses ++ [okResponse out] } ∧
      tfOperandsFit z key tweak out = true ∧
      ∀ t, exec (tfOf .encrypt z key tweak out) t =
        .next { t with responses := t.responses ++ [okResponse data] })

/-- `ENCRYPT_N` and `DECRYPT_N` round by round. Encryption: before every fourth round subkey `d / 4` is added into the
block, every round is `ROUND(d, _)`, and a last subkey is added after the last round. Decryption: the last subkey is
subtracted, then from the last round to the first `UNROUND(d, _)` and, where `d` is a multiple of 4, the subtraction of
subkey `d / 4` (spec/47_threefish.md R279, R288). -/
def Obligations.ThreefishNetworkByRounds : Prop :=
  ∀ (z : TfSize) (k t v : List W64),
    (∃ u : Nat → List W64,
      u 0 = v ∧
      (∀ d, d < z.rounds → u (d + 1) = tfRound z d
        (if d % 4 = 0 then List.zipWith (· + ·) (u d) (tfSubkey z.words k t (d / 4)) else u d)) ∧
      tfEncryptWords z k t v = List.zipWith (· + ·) (u z.rounds) (tfSubkey z.words k t (z.rounds / 4))) ∧
    (∃ u : Nat → List W64,
      u z.rounds = List.zipWith (· - ·) v (tfSubkey z.words k t (z.rounds / 4)) ∧
      (∀ d, d < z.rounds → u d =
        if d % 4 = 0 then List.zipWith (· - ·) (tfUnround z d (u (d + 1))) (tfSubkey z.words k t (d / 4))
        else tfUnround z d (u (d + 1))) ∧
      tfDecryptWords z k t v = u 0)

/-- MIX and its inverse (R277). -/
def Obligations.MixAndUnmix : Prop :=
  ∀ (a b : W64) (r : Nat), r < 64 →
    (tfMix a b r).1 = a + b ∧ (tfMix a b r).2 = rotl b r ^^^ (a + b) ∧
    tfUnmix (tfMix a b r).1 (tfMix a b r).2 r = (a, b) ∧
    (tfUnmix a b r).2 = rotr (b ^^^ a) r ∧ (tfUnmix a b r).1 = a - rotr (b ^^^ a) r

/-- A round word by word: the new word `i` is word `TF_PERM_N[i]` of the MIXed block, lane `j` having mixed the words `2j`
and `2j+1` by the rotation of row `d mod 8`; and the inverse round undoes it (R278). -/
def Obligations.RoundMixesAndPermutes : Prop :=
  ∀ (z : TfSize) (d : Nat) (v : List W64), v.length = z.words →
    (tfRound z d v).length = z.words ∧
    (∀ i, i < z.words → (tfRound z d v).getD i 0 = mixedWord z d v ((tfPerm z).getD i 0)) ∧
    tfUnround z d (tfRound z d v) = v ∧ tfRound z d (tfUnround z d v) = v

/-- Subkey `s` word by word: key words chosen cyclically from `s`, tweak words in the lanes `N-3` and `N-2`, the subkey
number in the last lane (R273). -/
def Obligations.SubkeyWordsByLane : Prop :=
  ∀ (z : TfSize) (k t : List W64) (s : Nat), s ≤ z.rounds / 4 →
    (tfSubkey z.words k t s).length = z.words ∧
    (∀ i, i < z.words - 3 → (tfSubkey z.words k t s).getD i 0 = k.getD ((s + i) % (z.words + 1)) 0) ∧
    (tfSubkey z.words k t s).getD (z.words - 3) 0 =
      k.getD ((s + (z.words - 3)) % (z.words + 1)) 0 + t.getD (s % 3) 0 ∧
    (tfSubkey z.words k t s).getD (z.words - 2) 0 =
      k.getD ((s + (z.words - 2)) % (z.words + 1)) 0 + t.getD ((s + 1) % 3) 0 ∧
    (tfSubkey z.words k t s).getD (z.words - 1) 0 =
      k.getD ((s + (z.words - 1)) % (z.words + 1)) 0 + BitVec.ofNat 64 s

/-- The key schedule keeps the key words and adds one parity word, so that all `N+1` words XOR to the constant; the third
tweak word is the XOR of the two (R271, R272). -/
def Obligations.KeyScheduleHasAParityWord : Prop :=
  ∀ (kw tw : List W64),
    (tfKeySchedule kw).length = kw.length + 1 ∧
    (∀ i, i < kw.length → (tfKeySchedule kw).getD i 0 = kw.getD i 0) ∧
    (tfKeySchedule kw).getD kw.length 0 = 0x1BD11BDAA9FC1A22 ^^^ kw.foldr (· ^^^ ·) 0 ∧
    (tfKeySchedule kw).foldr (· ^^^ ·) 0 = 0x1BD11BDAA9FC1A22 ∧
    tfTweakSchedule tw = [tw.getD 0 0, tw.getD 1 0, tw.getD 0 0 ^^^ tw.getD 1 0]

/-- The Threefish sizes and tables have their shapes: 4, 8 and 16 words, 72, 72 and 80 rounds; eight rows of `N/2`
rotations, each in 1..63; a permutation of the `N` word positions that keeps even positions even, with its inverse
(spec/00_scope.md R9; R274, R275). -/
def Obligations.ThreefishTablesHaveTheirShapes : Prop :=
  [TfSize.b256, .b512, .b1024].map (fun z => (z.words, z.rounds)) = [(4, 72), (8, 72), (16, 80)] ∧
  ∀ z : TfSize,
    (tfRotTable z).length = 8 ∧
    (∀ row ∈ tfRotTable z, row.length = z.words / 2 ∧ ∀ r ∈ row, 1 ≤ r ∧ r ≤ 63) ∧
    (tfPerm z).length = z.words ∧
    (∀ i, i < z.words →
      (tfPerm z).getD i 0 < z.words ∧ (tfPerm z).getD i 0 % 2 = i % 2 ∧
      (tfInvPerm z).getD ((tfPerm z).getD i 0) 0 = i ∧ (tfPerm z).getD ((tfInvPerm z).getD i 0) 0 = i)

/-! ## Rules of the whole machine -/

/-- `H` and `M` are disjoint: no hash command reads or writes `M`, no HMAC command reads or writes `H`, and Threefish reads
and writes neither. Not reading: on two states that agree on the context the command owns, the new values of that
context and the new response agree (spec/10_state.md R20). -/
def Obligations.ContextsAreDisjoint : Prop :=
  (∀ i s s', isHashCommand i → exec i s = .next s' → s'.m = s.m) ∧
  (∀ i s s', isHmacCommand i → exec i s = .next s' → s'.h = s.h) ∧
  (∀ i s s', isThreefishCommand i → exec i s = .next s' → s'.h = s.h ∧ s'.m = s.m) ∧
  (∀ i s t s' t', isHashCommand i → s.h = t.h → exec i s = .next s' → exec i t = .next t' →
    s'.h = t'.h ∧ ∃ r, s'.responses = s.responses ++ [r] ∧ t'.responses = t.responses ++ [r]) ∧
  (∀ i s t s' t', isHmacCommand i → s.m = t.m → exec i s = .next s' → exec i t = .next t' →
    s'.m = t'.m ∧ ∃ r, s'.responses = s.responses ++ [r] ∧ t'.responses = t.responses ++ [r]) ∧
  (∀ i s t s' t', isThreefishCommand i → exec i s = .next s' → exec i t = .next t' →
    ∃ r, s'.responses = s.responses ++ [r] ∧ t'.responses = t.responses ++ [r])

/-- The life cycle: `INIT` makes its context ACTIVE from either phase, `UPDATE` keeps the phase, `FINAL` makes it IDLE, and
no other command changes it (spec/10_state.md R22). -/
def Obligations.PhaseTransitions : Prop :=
  ∀ i s s', exec i s = .next s' →
    (((∃ a, i = hashInitOf a) ∧ s'.h.phase = .active) ∨ (i = .hashFinal ∧ s'.h.phase = .idle) ∨
      ((∀ a, i ≠ hashInitOf a) ∧ i ≠ .hashFinal ∧ s'.h.phase = s.h.phase)) ∧
    (((∃ a key, i = hmacInitOf a key) ∧ s'.m.phase = .active) ∨ (i = .hmacFinal ∧ s'.m.phase = .idle) ∨
      ((∀ a key, i ≠ hmacInitOf a key) ∧ i ≠ .hmacFinal ∧ s'.m.phase = s.m.phase))

/-- `ALG` is written by `INIT`, with the tag of its command word, and zeroed by the wipe of `FINAL`; no other command
changes it (spec/10_state.md R23). -/
def Obligations.AlgIsWrittenByInitAndWipedByFinal : Prop :=
  ∀ i s s', exec i s = .next s' →
    (∀ a, i = hashInitOf a → s'.h.alg = a ∧ a.tag = fieldAlg (encode i).cmd) ∧
    (∀ a key, i = hmacInitOf a key → s'.m.alg = a ∧ s'.m.h.alg = a ∧ a.tag = fieldAlg (encode i).cmd) ∧
    ((∀ a, i ≠ hashInitOf a) → i ≠ .hashFinal → s'.h.alg = s.h.alg) ∧
    ((∀ a key, i ≠ hmacInitOf a key) → i ≠ .hmacFinal → s'.m.alg = s.m.alg ∧ s'.m.h.alg = s.m.h.alg) ∧
    (i = .hashFinal → s.h.phase = .active → s'.h.alg.tag = 0) ∧
    (i = .hmacFinal → s.m.phase = .active → s'.m.alg.tag = 0 ∧ s'.m.h.alg.tag = 0)

/-- `INIT` and Threefish are idempotent: issued twice in a row with the same operands they leave the same contexts and give
the same response twice (spec/20_memory.md R71). -/
def Obligations.InitAndThreefishAreIdempotent : Prop :=
  ∀ i s s1 s2, ((∃ a, i = hashInitOf a) ∨ (∃ a key, i = hmacInitOf a key) ∨ isThreefishCommand i) →
    exec i s = .next s1 → exec i s1 = .next s2 →
    s2.h = s1.h ∧ s2.m = s1.m ∧ ∃ r, s1.responses = s.responses ++ [r] ∧ s2.responses = s.responses ++ [r, r]

/-- An empty update changes nothing of its context (spec/40_streaming_engine.md R125, case a). -/
def Obligations.EmptyUpdateIsANoOp : Prop :=
  (∀ s, s.h.phase = .active → s.h.pending.length < s.h.alg.blockBytes →
    exec (.hashUpdate []) s = .next { s with responses := s.responses ++ [{ status := 0, dout := [] }] }) ∧
  (∀ s, s.m.phase = .active → s.m.h.pending.length < s.m.h.alg.blockBytes →
    exec (.hmacUpdate []) s = .next { s with responses := s.responses ++ [{ status := 0, dout := [] }] })

/-- Every step keeps the invariant, from every state that meets it: register lengths, `0 <= len(pending) < B`, `M.K` of
exactly `B` bytes, `M.H` in step with `M`, everything wiped in IDLE (spec/10_state.md R25, R30, R32, R39). -/
def Obligations.StepKeepsTheInvariant : Prop :=
  ∀ s s', s.Inv → step s = .next s' → s'.Inv

/-- The reset state meets the invariant. -/
def Obligations.ResetMeetsTheInvariant : Prop := State.reset.Inv

/-- Two instances commute and do not disturb one another: stepping copies `i` and `j` in either order gives the same
copies, each copy having taken its own step and every other copy being as it was (spec/20_memory.md R79). -/
def Obligations.InstancesCommute : Prop :=
  ∀ (i j : Nat) (blocks : List State) (si sj si' sj' : State), i ≠ j →
    blocks[i]? = some si → blocks[j]? = some sj → step si = .next si' → step sj = .next sj' →
    ∃ b1 b2 b3, stepInstance i blocks = .next b1 ∧ stepInstance j b1 = .next b3 ∧
      stepInstance j blocks = .next b2 ∧ stepInstance i b2 = .next b3 ∧
      b3[i]? = some si' ∧ b3[j]? = some sj' ∧ (∀ n, n ≠ i → n ≠ j → b3[n]? = blocks[n]?)

/-- Every assembly line is the command of its instruction, the expansions of the pseudo-commands are their commands, an
unknown algorithm of `digest` issues one command, which raises `InvalidAlgorithmSelector`, and an unsupported size of
`threefish` one that raises `UnsupportedBlockSize` (R102, R103). -/
def Obligations.AssemblyLinesAreTheirCommands : Prop :=
  (∀ a, assemble (.hashInit a) = encode (hashInitOf a)) ∧
  (∀ a key, assemble (.hmacInit a key) = encode (hmacInitOf a key.bytes)) ∧
  (∀ data, assemble (.hashUpdate data) = encode (.hashUpdate data.bytes)) ∧
  (∀ data, assemble (.hmacUpdate data) = encode (.hmacUpdate data.bytes)) ∧
  assemble .hashFinal = encode .hashFinal ∧ assemble .hmacFinal = encode .hmacFinal ∧
  (∀ (z : TfSize) (key tweak block : ByteText),
    assemble (.tfEnc (BitVec.ofNat 16 z.bits) key tweak block) =
      encode (tfOf .encrypt z key.bytes tweak.bytes block.bytes) ∧
    assemble (.tfDec (BitVec.ofNat 16 z.bits) key tweak block) =
      encode (tfOf .decrypt z key.bytes tweak.bytes block.bytes)) ∧
  (∀ a buffer, pseudoHash a buffer = [hashInitOf a, .hashUpdate buffer, .hashFinal].map encode) ∧
  (∀ a buffer, pseudoDigest a.tag buffer = [hashInitOf a, .hashUpdate buffer, .hashFinal].map encode) ∧
  (∀ a key input, pseudoHmac a key input = [hmacInitOf a key, .hmacUpdate input, .hmacFinal].map encode) ∧
  (∀ (d : Dir) (z : TfSize) (key tweak block : Bytes),
    pseudoThreefish d (BitVec.ofNat 16 z.bits) key tweak block = [encode (tfOf d z key tweak block)]) ∧
  (∀ (tag : BitVec 4) (buffer : Bytes), 7 ≤ tag.toNat →
    ∃ c, pseudoDigest tag buffer = [c] ∧ decode c = .reject .invalidAlgorithmSelector) ∧
  (∀ (d : Dir) (bits : BitVec 16) (key tweak block : Bytes), bits ≠ 256 → bits ≠ 512 → bits ≠ 1024 →
    ∃ c, pseudoThreefish d bits key tweak block = [c] ∧ decode c = .reject .unsupportedBlockSize)
end

