-- ==== Sys2Proof/Laws/Bytes.lean ====
section
/-! SUPPORT. Bytes, words and rotations: round trips, lengths, and the words of a block one by one. -/

namespace Sys2Proof

/-! ## Numbers as byte strings -/

@[simp] theorem leOfNat_length (n x : Nat) : (leOfNat n x).length = n := by
  induction n generalizing x with
  | zero => rfl
  | succ n ih => simp [leOfNat, ih]

theorem natOfLe_lt (b : Bytes) : natOfLe b < 256 ^ b.length := by
  induction b with
  | nil => simp [natOfLe]
  | cons x xs ih =>
    have hx := x.isLt
    simp only [natOfLe, List.length_cons, pow_succ]
    omega

theorem natOfLe_leOfNat (n x : Nat) : natOfLe (leOfNat n x) = x % 256 ^ n := by
  induction n generalizing x with
  | zero => simp [leOfNat, natOfLe, Nat.mod_one]
  | succ n ih =>
    have h : (256 : Nat) ^ (n + 1) = 256 * 256 ^ n := Nat.pow_succ'
    simp only [leOfNat, natOfLe, ih, BitVec.toNat_ofNat, h]
    exact (Nat.mod_mul (a := 256)).symm

theorem leOfNat_natOfLe (b : Bytes) : leOfNat b.length (natOfLe b) = b := by
  induction b with
  | nil => rfl
  | cons x xs ih =>
    have hx := x.isLt
    simp only [List.length_cons, leOfNat, natOfLe]
    have h1 : (x.toNat + 256 * natOfLe xs) / 256 = natOfLe xs := by omega
    rw [h1, ih]
    congr 1
    apply BitVec.eq_of_toNat_eq
    simp only [BitVec.toNat_ofNat]
    omega

/-! ## Words as byte strings, for a width of whole bytes -/

@[simp] theorem leBytes_length {w : Nat} (x : BitVec w) : (leBytes x).length = w / 8 := by simp [leBytes]

@[simp] theorem beBytes_length {w : Nat} (x : BitVec w) : (beBytes x).length = w / 8 := by simp [beBytes]

theorem leWord_leBytes {n : Nat} (x : BitVec (8 * n)) : leWord (8 * n) (leBytes x) = x := by
  have h : x.toNat < 256 ^ n := by
    have := x.isLt
    rwa [pow_mul] at this
  apply BitVec.eq_of_toNat_eq
  rw [leWord, leBytes, Nat.mul_div_cancel_left n (by decide), natOfLe_leOfNat, Nat.mod_eq_of_lt h,
    BitVec.toNat_ofNat, Nat.mod_eq_of_lt x.isLt]

theorem leBytes_leWord {n : Nat} (b : Bytes) (hb : b.length = n) : leBytes (leWord (8 * n) b) = b := by
  have h := natOfLe_lt b
  subst hb
  rw [leBytes, leWord, Nat.mul_div_cancel_left _ (by decide), BitVec.toNat_ofNat,
    Nat.mod_eq_of_lt (by rw [pow_mul]; exact h), leOfNat_natOfLe]

theorem beWord_beBytes {n : Nat} (x : BitVec (8 * n)) : beWord (8 * n) (beBytes x) = x := by
  rw [beWord, beBytes, List.reverse_reverse]; exact leWord_leBytes x

theorem beBytes_beWord {n : Nat} (b : Bytes) (hb : b.length = n) : beBytes (beWord (8 * n) b) = b := by
  have h := leBytes_leWord b.reverse (n := n) (by simpa using hb)
  rw [beBytes, beWord]
  exact (congrArg List.reverse h).trans (List.reverse_reverse b)

/-! ## The words of a block -/

@[simp] theorem leWords_length (w n : Nat) (b : Bytes) : (leWords w n b).length = n := by
  induction n generalizing b with
  | zero => rfl
  | succ n ih => simp [leWords, ih]

@[simp] theorem beWords_length (w n : Nat) (b : Bytes) : (beWords w n b).length = n := by
  induction n generalizing b with
  | zero => rfl
  | succ n ih => simp [beWords, ih]

theorem leWords_getD (w n : Nat) (b : Bytes) (i : Nat) (hi : i < n) :
    (leWords w n b).getD i 0 = leWord w ((b.drop (w / 8 * i)).take (w / 8)) := by
  induction n generalizing b i with
  | zero => omega
  | succ n ih =>
    cases i with
    | zero => simp [leWords]
    | succ i =>
      simp only [leWords, List.getD_cons_succ]
      rw [ih _ _ (by omega), List.drop_drop, Nat.mul_succ, Nat.add_comm]

theorem beWords_getD (w n : Nat) (b : Bytes) (i : Nat) (hi : i < n) :
    (beWords w n b).getD i 0 = beWord w ((b.drop (w / 8 * i)).take (w / 8)) := by
  induction n generalizing b i with
  | zero => omega
  | succ n ih =>
    cases i with
    | zero => simp [beWords]
    | succ i =>
      simp only [beWords, List.getD_cons_succ]
      rw [ih _ _ (by omega), List.drop_drop, Nat.mul_succ, Nat.add_comm]

@[simp] theorem bytesOfLeWords_length {w : Nat} (ws : List (BitVec w)) :
    (bytesOfLeWords ws).length = w / 8 * ws.length := by
  induction ws with
  | nil => rfl
  | cons x xs ih =>
    simp only [bytesOfLeWords, List.flatMap_cons, List.length_append, leBytes_length, List.length_cons] at ih ⊢
    rw [ih]; ring

@[simp] theorem bytesOfBeWords_length {w : Nat} (ws : List (BitVec w)) :
    (bytesOfBeWords ws).length = w / 8 * ws.length := by
  induction ws with
  | nil => rfl
  | cons x xs ih =>
    simp only [bytesOfBeWords, List.flatMap_cons, List.length_append, beBytes_length, List.length_cons] at ih ⊢
    rw [ih]; ring

theorem leWords_bytesOfLeWords64 (ws : List W64) : leWords 64 ws.length (bytesOfLeWords ws) = ws := by
  induction ws with
  | nil => rfl
  | cons x xs ih =>
    have hl : (leBytes x).length = 8 := leBytes_length x
    have hx : leWord 64 (leBytes x) = x := leWord_leBytes (n := 8) x
    simp only [List.length_cons, leWords, bytesOfLeWords, List.flatMap_cons]
    rw [show 64 / 8 = 8 from rfl, List.take_left' hl, List.drop_left' hl, hx]
    exact congrArg _ ih

theorem bytesOfLeWords_leWords64 (n : Nat) (b : Bytes) (hb : b.length = 8 * n) :
    bytesOfLeWords (leWords 64 n b) = b := by
  induction n generalizing b with
  | zero => simp at hb; simp [leWords, bytesOfLeWords, hb]
  | succ n ih =>
    have ht : (b.take 8).length = 8 := by simp; omega
    have h1 : leBytes (leWord 64 (b.take 8)) = b.take 8 := leBytes_leWord (n := 8) _ ht
    have h2 := ih (b.drop 8) (by simp; omega)
    simp only [leWords, bytesOfLeWords, List.flatMap_cons] at h2 ⊢
    rw [show 64 / 8 = 8 from rfl, h1, h2, List.take_append_drop]

/-! ## Rotations -/

theorem rotl_zero {w : Nat} (x : BitVec w) : rotl x 0 = x := by
  apply BitVec.eq_of_getLsbD_eq
  intro i hi
  simp [rotl, hi]

theorem rotr_rotl {w : Nat} (x : BitVec w) (r : Nat) (hr : r < w) : rotr (rotl x r) r = x := by
  rcases Nat.eq_zero_or_pos r with rfl | h0
  · simp only [rotr, Nat.sub_zero, Nat.mod_self, rotl_zero]
  · apply BitVec.eq_of_getLsbD_eq
    intro i hi
    have h1 : (w - r) % w = w - r := Nat.mod_eq_of_lt (by omega)
    simp only [rotr, rotl, BitVec.getLsbD_rotateLeft, h1, Nat.mod_eq_of_lt hr]
    by_cases hc : i < w - r
    · have h2 : ¬ (w - (w - r) + i < r) := by omega
      simp only [hc, h2]
      have h4 : w - (w - r) + i - r = i := by omega
      have h5 : w - (w - r) + i < w := by omega
      simp [h4, h5]
    · simp only [hc]
      have h2 : i - (w - r) < r := by omega
      have h4 : w - r + (i - (w - r)) = i := by omega
      simp [h2, h4, hi]

theorem rotl_rotr {w : Nat} (x : BitVec w) (r : Nat) (hr : r < w) : rotl (rotr x r) r = x := by
  rcases Nat.eq_zero_or_pos r with rfl | h0
  · simp only [rotr, Nat.sub_zero, Nat.mod_self, rotl_zero]
  · have h1 : (w - r) % w = w - r := Nat.mod_eq_of_lt (by omega)
    have h := rotr_rotl x (w - r) (by omega)
    have h2 : (w - (w - r)) % w = r := by
      rw [show w - (w - r) = r by omega]; exact Nat.mod_eq_of_lt hr
    unfold rotr at h ⊢
    rw [h1]
    rw [h2] at h
    exact h

theorem rotl_toNat {w : Nat} (x : BitVec w) (r : Nat) (hr : r < w) :
    (rotl x r).toNat = (x.toNat * 2 ^ r) % 2 ^ w + x.toNat / 2 ^ (w - r) := by
  have hm : r % w = r := Nat.mod_eq_of_lt hr
  have hx := x.isLt
  have hsplit : (2 : Nat) ^ w = 2 ^ (w - r) * 2 ^ r := by rw [← pow_add]; congr 1; omega
  have hhi : x.toNat / 2 ^ (w - r) < 2 ^ r := by
    apply Nat.div_lt_of_lt_mul; rw [← hsplit]; exact hx
  rw [rotl, BitVec.rotateLeft_def, BitVec.toNat_or, BitVec.toNat_shiftLeft, BitVec.toNat_ushiftRight, hm,
    Nat.shiftLeft_eq, Nat.shiftRight_eq_div_pow]
  have hlow : x.toNat * 2 ^ r % 2 ^ w = (x.toNat % 2 ^ (w - r)) * 2 ^ r := by
    rw [hsplit, Nat.mul_mod_mul_right]
  rw [hlow, Nat.mul_comm (x.toNat % _), Nat.two_pow_add_eq_or_of_lt hhi]

end Sys2Proof
end

