-- ==== Sys2Proof/Laws/Compress.lean ====
section
/-! SUPPORT. The compression units step by step: schedules word by word, and the working registers after each step. -/

namespace Sys2Proof.Machine

/-! ## Schedules, the latest word first -/

theorem sha1Extend_drop (n : Nat) (l : List W32) : (sha1Extend n l).drop n = l := by
  induction n generalizing l with
  | zero => rfl
  | succ n ih => rw [sha1Extend, ← List.drop_drop, ih]; rfl

@[simp] theorem sha1Extend_length (n : Nat) (l : List W32) : (sha1Extend n l).length = n + l.length := by
  induction n generalizing l with
  | zero => simp [sha1Extend]
  | succ n ih => rw [sha1Extend, ih, List.length_cons]; omega

/-- Each new word is the next word after the ones before it. -/
theorem sha1Extend_getD (n : Nat) (l : List W32) (i : Nat) (h : i < n) :
    (sha1Extend n l).getD i 0 = sha1NextWord ((sha1Extend n l).drop (i + 1)) := by
  induction n generalizing l with
  | zero => omega
  | succ n ih =>
    rw [sha1Extend]
    by_cases hi : i < n
    · exact ih _ hi
    · obtain rfl : i = n := by omega
      have hd := sha1Extend_drop i (sha1NextWord l :: l)
      have h1 : (sha1Extend i (sha1NextWord l :: l)).getD i 0 = sha1NextWord l := by
        have := congrArg (fun x => x.getD 0 0) hd
        simpa [List.getD_eq_getElem?_getD] using this
      rw [h1, ← List.drop_drop, hd]
      rfl

theorem sha2Extend_drop {w : Nat} (s0 s1 : BitVec w → BitVec w) (n : Nat) (l : List (BitVec w)) :
    (sha2Extend s0 s1 n l).drop n = l := by
  induction n generalizing l with
  | zero => rfl
  | succ n ih => rw [sha2Extend, ← List.drop_drop, ih]; rfl

@[simp] theorem sha2Extend_length {w : Nat} (s0 s1 : BitVec w → BitVec w) (n : Nat) (l : List (BitVec w)) :
    (sha2Extend s0 s1 n l).length = n + l.length := by
  induction n generalizing l with
  | zero => simp [sha2Extend]
  | succ n ih => rw [sha2Extend, ih, List.length_cons]; omega

/-- Each new word is the next word after the ones before it. -/
theorem sha2Extend_getD {w : Nat} (s0 s1 : BitVec w → BitVec w) (n : Nat) (l : List (BitVec w)) (i : Nat)
    (h : i < n) :
    (sha2Extend s0 s1 n l).getD i 0 =
      s1 ((sha2Extend s0 s1 n l).getD (i + 2) 0) + (sha2Extend s0 s1 n l).getD (i + 7) 0 +
        s0 ((sha2Extend s0 s1 n l).getD (i + 15) 0) + (sha2Extend s0 s1 n l).getD (i + 16) 0 := by
  induction n generalizing l with
  | zero => omega
  | succ n ih =>
    rw [sha2Extend]
    by_cases hi : i < n
    · exact ih _ hi
    · obtain rfl : i = n := by omega
      generalize hx : s1 (l.getD 1 0) + l.getD 6 0 + s0 (l.getD 14 0) + l.getD 15 0 = x
      have hd := sha2Extend_drop s0 s1 i (x :: l)
      have hg : ∀ j, (sha2Extend s0 s1 i (x :: l)).getD (i + j) 0 = (x :: l).getD j 0 := by
        intro j
        have := congrArg (fun y => y.getD j 0) hd
        simpa [List.getD_eq_getElem?_getD] using this
      have h0 := hg 0
      rw [Nat.add_zero] at h0
      rw [h0, hg 2, hg 7, hg 15, hg 16]
      simpa using hx.symm

/-- Reading a reversed list from its other end. -/
theorem getD_reverse {α : Type} (l : List α) (d : α) (i : Nat) (h : i < l.length) :
    l.reverse.getD i d = l.getD (l.length - 1 - i) d := by
  rw [List.getD_eq_getElem?_getD, List.getD_eq_getElem?_getD, List.getElem?_reverse h]

/-! ## Working registers -/

/-- The MD5 working words after `i` steps. -/
theorem md5_steps_succ (m : List W32) (s : Md5Regs) (i : Nat) :
    (List.range (i + 1)).foldl (md5Step m) s = md5Step m ((List.range i).foldl (md5Step m) s) i := by
  rw [List.range_succ, List.foldl_append]; rfl

theorem sha1Steps_append (t : Nat) (xs ys : List W32) (v : Sha1Regs) :
    sha1Steps t (xs ++ ys) v = sha1Steps (t + xs.length) ys (sha1Steps t xs v) := by
  induction xs generalizing t v with
  | nil => rfl
  | cons x xs ih =>
    rw [List.cons_append, sha1Steps, ih, sha1Steps, List.length_cons]
    congr 1
    omega

/-- The SHA-1 working words after one more step. -/
theorem sha1Steps_take_succ (ws : List W32) (v : Sha1Regs) (t : Nat) (h : t < ws.length) :
    sha1Steps 0 (ws.take (t + 1)) v = sha1Step t (ws.getD t 0) (sha1Steps 0 (ws.take t) v) := by
  rw [List.take_succ_eq_append_getElem h, sha1Steps_append, List.length_take, Nat.min_eq_left h.le,
    List.getD_eq_getElem _ _ h, Nat.zero_add]
  rfl

/-- The SHA-2 working words after one more round. -/
theorem sha2Rounds_take_succ {w : Nat} (b0 b1 : BitVec w → BitVec w) (ks ws : List (BitVec w)) (v : Sha2Regs w)
    (t : Nat) (hk : t < ks.length) (hw : t < ws.length) :
    sha2Rounds b0 b1 (ks.take (t + 1)) (ws.take (t + 1)) v =
      sha2Round b0 b1 (sha2Rounds b0 b1 (ks.take t) (ws.take t) v) (ks.getD t 0) (ws.getD t 0) := by
  induction t generalizing ks ws v with
  | zero =>
    match ks, ws, hk, hw with
    | k :: ks, x :: ws, _, _ => simp [sha2Rounds]
  | succ t ih =>
    match ks, ws, hk, hw with
    | k :: ks, x :: ws, hk, hw =>
      have := ih ks ws (sha2Round b0 b1 v k x) (by simpa using hk) (by simpa using hw)
      simp only [List.take_succ_cons, sha2Rounds, List.getD_cons_succ]
      exact this

/-! ## MD2 -/

/-- The running byte of a pass before byte `k`: the byte at the start, then each new byte of the buffer. -/
def md2Run (t : Byte) (b : Bytes) (k : Nat) : Byte :=
  match k with
  | 0 => t
  | k + 1 => (md2Pass t b).1.getD k 0

/-- Each byte of a pass is XORed with the table entry of the running byte. -/
theorem md2Pass_getD (t : Byte) (b : Bytes) (k : Nat) (h : k < b.length) :
    (md2Pass t b).1.getD k 0 = b.getD k 0 ^^^ md2S (md2Run t b k) := by
  induction b generalizing t k with
  | nil => simp at h
  | cons x xs ih =>
    cases k with
    | zero => rfl
    | succ k =>
      have h1 := ih (x ^^^ md2S t) k (by simpa using h)
      simp only [md2Pass, List.getD_cons_succ]
      rw [h1]
      cases k <;> rfl

/-- The last running byte of a pass. -/
theorem md2Pass_snd (t : Byte) (b : Bytes) : (md2Pass t b).2 = md2Run t b b.length := by
  induction b generalizing t with
  | nil => rfl
  | cons x xs ih =>
    simp only [md2Pass, List.length_cons]
    rw [ih]
    cases xs <;> rfl

/-- The checksum byte by byte, `l` being the running byte at the start. -/
theorem md2Checksum_getD (l : Byte) (c b : Bytes) (j : Nat) (hc : j < c.length) (hb : j < b.length) :
    (md2Checksum l c b).getD j 0 =
      c.getD j 0 ^^^ md2S (b.getD j 0 ^^^ (if j = 0 then l else (md2Checksum l c b).getD (j - 1) 0)) := by
  induction c generalizing l b j with
  | nil => simp at hc
  | cons x xs ih =>
    cases b with
    | nil => simp at hb
    | cons y ys =>
      cases j with
      | zero => rfl
      | succ j =>
        have h1 := ih (x ^^^ md2S (y ^^^ l)) ys j (by simpa using hc) (by simpa using hb)
        simp only [md2Checksum, List.getD_cons_succ]
        rw [h1]
        cases j <;> rfl

end Sys2Proof.Machine
end

