-- ==== Sys2Proof/Laws/Decode.lean ====
section
/-! SUPPORT. The command word from its fields, and what an accepted command looks like. -/

namespace Sys2Proof

/-- The command word is determined by its five fields. -/
theorem word_toNat (w : W32) :
    w.toNat = (fieldOp w).toNat + 16 * (fieldAlg w).toNat + 256 * (fieldDir w).toNat + 512 * (fieldRsv w).toNat +
      65536 * (fieldBsb w).toNat := by
  have h := w.isLt
  simp only [fieldOp, fieldAlg, fieldDir, fieldRsv, fieldBsb, BitVec.extractLsb'_toNat, Nat.shiftRight_eq_div_pow]
  omega

theorem word_eq_of_fields {w v : W32} (h1 : fieldOp w = fieldOp v) (h2 : fieldAlg w = fieldAlg v)
    (h3 : fieldDir w = fieldDir v) (h4 : fieldRsv w = fieldRsv v) (h5 : fieldBsb w = fieldBsb v) : w = v := by
  apply BitVec.eq_of_toNat_eq
  rw [word_toNat w, word_toNat v, h1, h2, h3, h4, h5]

/-! ## Selectors -/

@[simp] theorem Alg.ofTag_tag (a : Alg) : Alg.ofTag a.tag = some a := by cases a <;> rfl

theorem Alg.tag_of_ofTag {t : BitVec 4} {a : Alg} (h : Alg.ofTag t = some a) : a.tag = t := by
  revert h; revert a; revert t; decide

theorem Alg.ofTag_none_iff (t : BitVec 4) : Alg.ofTag t = none ↔ 7 ≤ t.toNat := by
  revert t; decide

theorem TfSize.ofBits_some_iff (b : BitVec 16) (z : TfSize) :
    TfSize.ofBits b = some z ↔ b = BitVec.ofNat 16 z.bits := by
  unfold TfSize.ofBits
  constructor
  · intro h
    split at h <;> cases h <;> exact BitVec.eq_of_toNat_eq (by simpa [TfSize.bits])
  · rintro rfl
    cases z <;> rfl

theorem TfSize.ofBits_none_iff (b : BitVec 16) : TfSize.ofBits b = none ↔ b ≠ 256 ∧ b ≠ 512 ∧ b ≠ 1024 := by
  constructor
  · intro h
    refine ⟨?_, ?_, ?_⟩ <;> rintro rfl <;> exact absurd h (by decide)
  · rintro ⟨h1, h2, h3⟩
    rcases hz : TfSize.ofBits b with _ | z
    · rfl
    · rw [TfSize.ofBits_some_iff] at hz
      cases z <;> contradiction

/-- The three lengths behind `tfOperandsFit`. -/
theorem tfOperandsFit_iff (z : TfSize) (key tweak data : Bytes) :
    tfOperandsFit z key tweak data = true ↔
      key.length = z.blockBytes ∧ tweak.length = 16 ∧ data.length = z.blockBytes := by
  simp [tfOperandsFit, tweakBytes, and_assoc]

/-- A Threefish instruction is well-formed when its operands fit. -/
theorem wellFormed_tfOf (d : Dir) (z : TfSize) (key tweak data : Bytes) :
    (tfOf d z key tweak data).wellFormed = tfOperandsFit z key tweak data := by
  cases d <;> cases z <;> rfl

/-! ## The decoder, case by case of `OP` -/

/-- Everything the decoder does: the reserved bits first, then one case per `OP`. -/
theorem decode_cases (c : Command) :
    (fieldRsv c.cmd ≠ 0 ∧ decode c = .reject .illegalCommand) ∨
    (fieldRsv c.cmd = 0 ∧
      ((fieldOp c.cmd = 0x1 ∧ decode c = decodeHashInit c) ∨
       (fieldOp c.cmd = 0x2 ∧ decode c = decodeHashUpdate c) ∨
       (fieldOp c.cmd = 0x3 ∧ decode c = decodeHashFinal c) ∨
       (fieldOp c.cmd = 0x5 ∧ decode c = decodeHmacInit c) ∨
       (fieldOp c.cmd = 0x6 ∧ decode c = decodeHmacUpdate c) ∨
       (fieldOp c.cmd = 0x7 ∧ decode c = decodeHmacFinal c) ∨
       (fieldOp c.cmd = 0x9 ∧ decode c = decodeTf c) ∨
       (fieldOp c.cmd ∉ [0x1, 0x2, 0x3, 0x5, 0x6, 0x7, 0x9] ∧ decode c = .reject .illegalCommand))) := by
  by_cases hr : fieldRsv c.cmd = 0
  · refine .inr ⟨hr, ?_⟩
    have hd : decode c = match (fieldOp c.cmd).toNat with
        | 0x1 => decodeHashInit c
        | 0x2 => decodeHashUpdate c
        | 0x3 => decodeHashFinal c
        | 0x5 => decodeHmacInit c
        | 0x6 => decodeHmacUpdate c
        | 0x7 => decodeHmacFinal c
        | 0x9 => decodeTf c
        | _ => .reject .illegalCommand := by
      unfold decode; exact if_neg (not_not.mpr hr)
    rw [hd]
    generalize fieldOp c.cmd = op
    have hop : ∀ op : BitVec 4, op = 0 ∨ op = 1 ∨ op = 2 ∨ op = 3 ∨ op = 4 ∨ op = 5 ∨ op = 6 ∨ op = 7 ∨ op = 8 ∨
        op = 9 ∨ op = 10 ∨ op = 11 ∨ op = 12 ∨ op = 13 ∨ op = 14 ∨ op = 15 := by decide
    rcases hop op with rfl | rfl | rfl | rfl | rfl | rfl | rfl | rfl | rfl | rfl | rfl | rfl | rfl | rfl | rfl | rfl <;>
      simp
  · exact .inl ⟨hr, by unfold decode; rw [if_pos hr]⟩

end Sys2Proof
end

