-- ==== Sys2Proof/Laws/State.lean ====
section
/-! SUPPORT. What each update of the state leaves in each field, and what a context's algorithm is after an update of one of
its fields. -/

namespace Sys2Proof.Machine

/-! ## Updates of the state -/

@[simp] theorem State.answer_h (s : State) (st : BitVec 8) (d : Bytes) : (s.answer st d).h = s.h := rfl
@[simp] theorem State.answer_m (s : State) (st : BitVec 8) (d : Bytes) : (s.answer st d).m = s.m := rfl
@[simp] theorem State.answer_inputs (s : State) (st : BitVec 8) (d : Bytes) : (s.answer st d).inputs = s.inputs := rfl
@[simp] theorem State.answer_responses (s : State) (st : BitVec 8) (d : Bytes) :
    (s.answer st d).responses = s.responses ++ [{ status := st, dout := d }] := rfl

@[simp] theorem State.setH_h (s : State) (c : HashCtx) : (s.setH c).h = c := rfl
@[simp] theorem State.setH_m (s : State) (c : HashCtx) : (s.setH c).m = s.m := rfl
@[simp] theorem State.setH_inputs (s : State) (c : HashCtx) : (s.setH c).inputs = s.inputs := rfl
@[simp] theorem State.setH_responses (s : State) (c : HashCtx) : (s.setH c).responses = s.responses := rfl

@[simp] theorem State.setM_h (s : State) (c : HmacCtx) : (s.setM c).h = s.h := rfl
@[simp] theorem State.setM_m (s : State) (c : HmacCtx) : (s.setM c).m = c := rfl
@[simp] theorem State.setM_inputs (s : State) (c : HmacCtx) : (s.setM c).inputs = s.inputs := rfl
@[simp] theorem State.setM_responses (s : State) (c : HmacCtx) : (s.setM c).responses = s.responses := rfl

@[simp] theorem State.setInputs_h (s : State) (l : List Input) : (s.setInputs l).h = s.h := rfl
@[simp] theorem State.setInputs_m (s : State) (l : List Input) : (s.setInputs l).m = s.m := rfl
@[simp] theorem State.setInputs_inputs (s : State) (l : List Input) : (s.setInputs l).inputs = l := rfl
@[simp] theorem State.setInputs_responses (s : State) (l : List Input) : (s.setInputs l).responses = s.responses := rfl

/-! ## The wiped contexts -/

@[simp] theorem HashCtx.wiped_phase : HashCtx.wiped.phase = .idle := rfl
@[simp] theorem HashCtx.wiped_alg : HashCtx.wiped.alg = .md2 := rfl
@[simp] theorem HashCtx.wiped_pending : HashCtx.wiped.pending = [] := rfl
@[simp] theorem HashCtx.wiped_totalLen : HashCtx.wiped.totalLen = 0 := rfl
@[simp] theorem HmacCtx.wiped_phase : HmacCtx.wiped.phase = .idle := rfl
@[simp] theorem HmacCtx.wiped_alg : HmacCtx.wiped.alg = .md2 := rfl
@[simp] theorem HmacCtx.wiped_h : HmacCtx.wiped.h = HashCtx.wiped := rfl

/-! ## A next state is one state -/

@[simp] theorem next_inj {s t : State} : ((Host.Outcome.next s : Out) = .next t) ↔ s = t :=
  ⟨fun h => Host.Outcome.next.inj h, fun h => h ▸ rfl⟩

/-- What `respond` answers. -/
theorem respond_eq (d : Bytes) (s : State) : respond d s = .next (s.answer statusOk d) := rfl

/-- What `raiseError` answers: the error response, and no other change. -/
theorem raiseError_eq (e : CmdError) (s : State) : raiseError e s = .next (s.answer (statusOf e) []) := rfl

/-- No error has the code of success. -/
theorem statusOf_ne_ok (e : CmdError) : statusOf e ≠ statusOk := by cases e <;> decide

/-- Distinct errors have distinct codes. -/
theorem statusOf_inj {e e' : CmdError} (h : statusOf e = statusOf e') : e = e' := by
  cases e <;> cases e' <;> first | rfl | exact absurd h (by decide)

end Sys2Proof.Machine
end

