-- ==== Sys2Proof/Laws/Stream.lean ====
section
/-! SUPPORT. The streaming engine: what `absorb`, `finishDigest` and `hashWhole` compute, said without the buffer, and that
every micro-operation keeps a context well-formed. -/

namespace Sys2Proof.Machine

theorem Alg.blockBytes_pos (a : Alg) : 0 < a.blockBytes := by cases a <;> decide

/-! ## Blocks of a string -/

@[simp] theorem firstBlocks_length (bb n : Nat) (x : Bytes) : (firstBlocks bb n x).length = n := by
  induction n generalizing x with
  | zero => rfl
  | succ n ih => simp [firstBlocks, ih]

@[simp] theorem fullBlocks_length (bb : Nat) (x : Bytes) : (fullBlocks bb x).length = x.length / bb := by
  simp [fullBlocks]

theorem firstBlocks_add (bb m n : Nat) (x : Bytes) :
    firstBlocks bb (m + n) x = firstBlocks bb m x ++ firstBlocks bb n (x.drop (bb * m)) := by
  induction m generalizing x with
  | zero => simp [firstBlocks]
  | succ m ih =>
    rw [show m + 1 + n = (m + n) + 1 by omega, firstBlocks, ih, firstBlocks, List.drop_drop, List.cons_append]
    congr 4
    ring

theorem firstBlocks_append (bb m : Nat) (x y : Bytes) (h : bb * m ≤ x.length) :
    firstBlocks bb m (x ++ y) = firstBlocks bb m x := by
  induction m generalizing x with
  | zero => rfl
  | succ m ih =>
    have hb : bb ≤ x.length := le_trans (Nat.le_mul_of_pos_right bb m.succ_pos) h
    rw [firstBlocks, firstBlocks, List.take_append_of_le_length hb, List.drop_append_of_le_length hb, ih]
    rw [List.length_drop]
    rw [Nat.mul_succ] at h
    omega

theorem firstBlocks_block_length (bb n : Nat) (x : Bytes) (h : bb * n ≤ x.length) :
    ∀ b ∈ firstBlocks bb n x, b.length = bb := by
  induction n generalizing x with
  | zero => simp [firstBlocks]
  | succ n ih =>
    rw [Nat.mul_succ] at h
    intro b hb
    rcases List.mem_cons.mp hb with rfl | hb
    · rw [List.length_take]; omega
    · exact ih _ (by rw [List.length_drop]; omega) b hb

theorem fullBlocks_block_length (bb : Nat) (x : Bytes) : ∀ b ∈ fullBlocks bb x, b.length = bb :=
  firstBlocks_block_length bb _ x (Nat.mul_div_le _ _)

theorem afterBlocks_length (bb : Nat) (x : Bytes) : (afterBlocks bb x).length = x.length % bb := by
  rw [afterBlocks, List.length_drop, Nat.mod_eq_sub]

theorem afterBlocks_length_lt (bb : Nat) (h : 0 < bb) (x : Bytes) : (afterBlocks bb x).length < bb := by
  rw [afterBlocks_length]; exact Nat.mod_lt _ h

theorem fullBlocks_of_short (bb : Nat) (x : Bytes) (h : x.length < bb) : fullBlocks bb x = [] := by
  rw [fullBlocks, Nat.div_eq_of_lt h, firstBlocks]

theorem afterBlocks_of_short (bb : Nat) (x : Bytes) (h : x.length < bb) : afterBlocks bb x = x := by
  rw [afterBlocks, Nat.div_eq_of_lt h, Nat.mul_zero, List.drop_zero]

theorem fullBlocks_of_one (bb : Nat) (h : 0 < bb) (x : Bytes) (hx : x.length = bb) : fullBlocks bb x = [x] := by
  rw [fullBlocks, hx, Nat.div_self h, firstBlocks, firstBlocks, ← hx, List.take_length]

theorem afterBlocks_of_one (bb : Nat) (h : 0 < bb) (x : Bytes) (hx : x.length = bb) : afterBlocks bb x = [] := by
  rw [afterBlocks, hx, Nat.div_self h, Nat.mul_one, ← hx, List.drop_length]

theorem append_length_div (bb : Nat) (x y : Bytes) :
    (x ++ y).length / bb = x.length / bb + (afterBlocks bb x ++ y).length / bb := by
  rcases Nat.eq_zero_or_pos bb with rfl | h
  · simp
  · have hd := Nat.div_add_mod x.length bb
    have key : (x ++ y).length = (afterBlocks bb x ++ y).length + bb * (x.length / bb) := by
      rw [List.length_append, List.length_append, afterBlocks_length]; omega
    rw [key, Nat.add_mul_div_left _ _ h, Nat.add_comm]

/-- The full blocks of a string, piece by piece. -/
theorem fullBlocks_append (bb : Nat) (x y : Bytes) :
    fullBlocks bb (x ++ y) = fullBlocks bb x ++ fullBlocks bb (afterBlocks bb x ++ y) := by
  have h := Nat.mul_div_le x.length bb
  rw [fullBlocks, append_length_div, firstBlocks_add, firstBlocks_append _ _ _ _ h,
    List.drop_append_of_le_length h]
  rfl

/-- The bytes after the full blocks of a string, piece by piece. -/
theorem afterBlocks_append (bb : Nat) (x y : Bytes) :
    afterBlocks bb (x ++ y) = afterBlocks bb (afterBlocks bb x ++ y) := by
  have h := Nat.mul_div_le x.length bb
  rw [afterBlocks, append_length_div, Nat.mul_add, ← List.drop_drop, List.drop_append_of_le_length h]
  rfl

/-! ## Compression -/

@[simp] theorem compress_alg (s : HashRegs) (blk : Bytes) : (compress s blk).alg = s.alg := by
  cases s <;> simp only [compress, HashRegs.alg]

@[simp] theorem foldl_compress_alg (l : List Bytes) (s : HashRegs) : (l.foldl compress s).alg = s.alg := by
  induction l generalizing s with
  | nil => rfl
  | cons b l ih => rw [List.foldl_cons, ih, compress_alg]

@[simp] theorem compressAll_alg (s : HashRegs) (x : Bytes) : (compressAll s x).alg = s.alg :=
  foldl_compress_alg _ s

@[simp] theorem ivOf_alg (a : Alg) : (ivOf a).alg = a := by cases a <;> rfl

@[simp] theorem ctxInit_alg (a : Alg) : (ctxInit a).alg = a := ivOf_alg a

theorem compressAll_append (s : HashRegs) (x y : Bytes) :
    compressAll s (x ++ y) = compressAll (compressAll s x) (afterBlocks s.alg.blockBytes x ++ y) := by
  rw [compressAll, fullBlocks_append, List.foldl_append]
  conv => rhs; rw [compressAll, compressAll_alg]
  rfl

theorem compressAll_of_short (s : HashRegs) (x : Bytes) (h : x.length < s.alg.blockBytes) : compressAll s x = s := by
  rw [compressAll, fullBlocks_of_short _ _ h]; rfl

theorem compressAll_of_one (s : HashRegs) (x : Bytes) (h : x.length = s.alg.blockBytes) :
    compressAll s x = compress s x := by
  rw [compressAll, fullBlocks_of_one _ (Alg.blockBytes_pos _) _ h]; rfl

theorem compressBlocks_eq (bb n : Nat) (s : HashRegs) (x : Bytes) :
    compressBlocks bb n s x = ((firstBlocks bb n x).foldl compress s, x.drop (bb * n)) := by
  induction n generalizing s x with
  | zero => simp [compressBlocks, firstBlocks]
  | succ n ih =>
    rw [compressBlocks, ih, firstBlocks, List.foldl_cons, List.drop_drop]
    congr 2
    ring

/-- The block loop over all full blocks of a string. -/
theorem compressBlocks_full (s : HashRegs) (x : Bytes) :
    compressBlocks s.alg.blockBytes (x.length / s.alg.blockBytes) s x =
      (compressAll s x, afterBlocks s.alg.blockBytes x) := compressBlocks_eq _ _ _ _

/-! ## `ABSORB` -/

/-- Everything `absorb` does, with no top-up: the full blocks of `pending ++ data` go into the registers, the rest of it
is `pending`, and the counter advances. -/
theorem absorb_eq (c : HashCtx) (data : Bytes) (hp : c.pending.length < c.alg.blockBytes) :
    absorb c data =
      { phase := c.phase,
        s := compressAll c.s (c.pending ++ data),
        pending := afterBlocks c.alg.blockBytes (c.pending ++ data),
        totalLen := c.totalLen + BitVec.ofNat 64 data.length } := by
  have hB := Alg.blockBytes_pos c.alg
  have hsplit : c.pending ++ data =
      (c.pending ++ data.take (topUpBytes c data)) ++ data.drop (topUpBytes c data) := by simp
  by_cases hfull : (c.pending ++ data.take (topUpBytes c data)).length = c.alg.blockBytes
  · have hs : (topUp c data).s = compress c.s (c.pending ++ data.take (topUpBytes c data)) := by
      unfold topUp; rw [if_pos hfull]
    have hpd : (topUp c data).pending = [] := by unfold topUp; rw [if_pos hfull]
    have hph : (topUp c data).phase = c.phase := by unfold topUp; rw [if_pos hfull]
    have h1 := compressAll_of_one c.s _ hfull
    have halg : c.alg = (topUp c data).s.alg := by rw [hs, compress_alg]; rfl
    unfold absorb
    simp only [hpd, hph, List.nil_append]
    conv => lhs; rw [halg, compressBlocks_full, hs, ← h1, compressAll_alg]
    have h2 := afterBlocks_of_one _ hB _ hfull
    have h3 := compressAll_append c.s (c.pending ++ data.take (topUpBytes c data)) (data.drop (topUpBytes c data))
    have h4 := afterBlocks_append c.alg.blockBytes (c.pending ++ data.take (topUpBytes c data))
      (data.drop (topUpBytes c data))
    rw [show c.s.alg = c.alg from rfl] at h3
    rw [h2, List.nil_append, ← hsplit] at h3 h4
    rw [h3, h4]
    rfl
  · have hs : (topUp c data).s = c.s := by unfold topUp; rw [if_neg hfull]
    have hpd : (topUp c data).pending = c.pending ++ data.take (topUpBytes c data) := by
      unfold topUp; rw [if_neg hfull]
    have hph : (topUp c data).phase = c.phase := by unfold topUp; rw [if_neg hfull]
    unfold absorb
    simp only [hpd, hph, hs]
    rw [show c.alg = c.s.alg from rfl, compressBlocks_full]
    by_cases h0 : c.pending = []
    · simp [h0, topUpBytes]
    · have hpos : c.pending.length > 0 := List.length_pos_iff.mpr h0
      have hk : topUpBytes c data = data.length := by
        rw [List.length_append, List.length_take] at hfull
        unfold topUpBytes at hfull ⊢
        rw [if_pos hpos] at hfull ⊢
        omega
      have hdrop : data.drop (topUpBytes c data) = [] := by rw [hk, List.drop_length]
      have htake : data.take (topUpBytes c data) = data := by rw [hk, List.take_length]
      have hlt : (c.pending ++ data).length < c.s.alg.blockBytes := by
        rw [htake] at hfull
        have : (c.pending ++ data).length ≤ c.alg.blockBytes := by
          rw [List.length_append]
          have : topUpBytes c data ≤ c.alg.blockBytes - c.pending.length := by
            unfold topUpBytes; rw [if_pos hpos]; exact min_le_left _ _
          omega
        show _ < c.alg.blockBytes
        omega
      rw [hdrop, htake, compressAll_of_short _ _ hlt, afterBlocks_of_short _ _ hlt,
        compressAll_of_short _ _ (by simpa using Alg.blockBytes_pos _),
        afterBlocks_of_short _ _ (by simpa using Alg.blockBytes_pos _), List.append_nil]

theorem topUp_alg (c : HashCtx) (data : Bytes) : (topUp c data).alg = c.alg := by
  unfold topUp
  by_cases h : (c.pending ++ data.take (topUpBytes c data)).length = c.alg.blockBytes
  · simp only [h, if_true]; exact compress_alg _ _
  · simp only [h, if_false]; rfl

theorem absorb_alg (c : HashCtx) (data : Bytes) : (absorb c data).alg = c.alg := by
  unfold absorb
  simp only [HashCtx.alg, compressBlocks_eq, foldl_compress_alg]
  exact topUp_alg c data

theorem absorb_pending_lt (c : HashCtx) (data : Bytes) (hp : c.pending.length < c.alg.blockBytes) :
    (absorb c data).pending.length < (absorb c data).alg.blockBytes := by
  rw [absorb_alg c data, absorb_eq c data hp]
  exact afterBlocks_length_lt _ (Alg.blockBytes_pos _) _

/-- One update after another is one update of both pieces. -/
theorem absorb_absorb (c : HashCtx) (x y : Bytes) (hp : c.pending.length < c.alg.blockBytes) :
    absorb (absorb c x) y = absorb c (x ++ y) := by
  have h1 := absorb_pending_lt c x hp
  rw [absorb_eq _ y h1, absorb_alg c x, absorb_eq c x hp, absorb_eq c (x ++ y) hp]
  simp only [← List.append_assoc]
  rw [compressAll_append c.s (c.pending ++ x) y, afterBlocks_append _ (c.pending ++ x) y, List.length_append,
    BitVec.ofNat_add, BitVec.add_assoc]
  rfl

theorem ctxInit_pending_lt (a : Alg) : (ctxInit a).pending.length < (ctxInit a).alg.blockBytes := by
  rw [ctxInit_alg]; exact Alg.blockBytes_pos a

/-- A fresh context after it has absorbed a whole string. -/
theorem absorb_ctxInit (a : Alg) (x : Bytes) :
    absorb (ctxInit a) x =
      { phase := .active, s := compressAll (ivOf a) x, pending := afterBlocks a.blockBytes x,
        totalLen := BitVec.ofNat 64 x.length } := by
  rw [absorb_eq _ _ (ctxInit_pending_lt a), ctxInit_alg]
  simp [ctxInit]

/-! ## Padding and finish -/

theorem Alg.lengthField_fits (a : Alg) : a.lengthFieldBytes + 1 ≤ a.blockBytes := by cases a <;> decide

theorem padZeros_eq (a : Alg) (p : Nat) (h : p < a.blockBytes) : padZeros a p = zerosToFill a p := by
  have hf := Alg.lengthField_fits a
  unfold padZeros zerosToFill
  generalize a.blockBytes = b at *
  generalize a.lengthFieldBytes = f at *
  split
  · rw [Int.emod_eq_of_lt (by omega) (by omega)]; omega
  · rw [← Int.add_emod_right, Int.emod_eq_of_lt (by omega) (by omega)]; omega

@[simp] theorem lengthField_length (a : Alg) (t : W64) : (lengthField a t).length = a.lengthFieldBytes := by
  cases a <;> simp [lengthField, Alg.lengthFieldBytes]

/-- Everything `finishDigest` computes, with no padding formula. -/
theorem finishDigest_eq (c : HashCtx) (hp : c.pending.length < c.alg.blockBytes) :
    finishDigest c = digestFrom c.s c.pending c.totalLen := by
  have hmd : finishMd c = encodeDigest (compressAll c.s
      (c.pending ++ [0x80] ++ rep 0 (zerosToFill c.s.alg c.pending.length) ++ lengthField c.s.alg c.totalLen)) := by
    have h := compressBlocks_full c.s (padMd c)
    unfold finishMd
    simp only
    rw [show c.alg = c.s.alg from rfl, h, padMd, padZeros_eq _ _ hp]
    rfl
  obtain ⟨ph, s, pd, tl⟩ := c
  cases s <;> first | rfl | exact hmd

/-- Every unit but MD2 finishes by its length padding. -/
theorem finishDigest_of_ne_md2 (c : HashCtx) (h : c.alg ≠ .md2) : finishDigest c = finishMd c := by
  obtain ⟨ph, s, pd, tl⟩ := c
  cases s
  · exact absurd rfl h
  all_goals rfl

/-- The finish by length padding: the blocks of the padded tail go into the registers in order. -/
theorem finishMd_eq_tail (c : HashCtx) :
    finishMd c = encodeDigest ((fullBlocks c.alg.blockBytes (padMd c)).foldl compress c.s) :=
  congrArg (fun y : HashRegs × Bytes => encodeDigest y.1) (compressBlocks_full c.s (padMd c))

/-- Everything `hashWhole` computes. -/
theorem hashWhole_eq (a : Alg) (x : Bytes) : hashWhole a x = messageDigest a x := by
  have hp := absorb_pending_lt (ctxInit a) x (ctxInit_pending_lt a)
  rw [hashWhole, finish, finishDigest_eq _ hp, absorb_ctxInit, messageDigest]

/-! ## Well-formedness -/

@[simp] theorem md2Checksum_length (l : Byte) (c b : Bytes) : (md2Checksum l c b).length = c.length := by
  induction c generalizing l b with
  | nil => simp [md2Checksum]
  | cons x xs ih => cases b <;> simp [md2Checksum, ih]

@[simp] theorem md2Pass_length (t : Byte) (b : Bytes) : (md2Pass t b).1.length = b.length := by
  induction b generalizing t with
  | nil => rfl
  | cons x xs ih => simp [md2Pass, ih]

@[simp] theorem md2Passes_length (n j : Nat) (t : Byte) (b : Bytes) : (md2Passes n j t b).length = b.length := by
  induction n generalizing j t b with
  | zero => rfl
  | succ n ih => simp [md2Passes, ih]

theorem md2Compress_x_length (r : Md2Regs) (blk : Bytes) (h : r.x.length = 16) :
    (md2Compress r blk).x.length = 16 := by
  simp [md2Compress, md2Buffer, h]

theorem md2Compress_c_length (r : Md2Regs) (blk : Bytes) : (md2Compress r blk).c.length = r.c.length := by
  simp [md2Compress]

theorem compress_WF (s : HashRegs) (blk : Bytes) (h : s.WF) : (compress s blk).WF := by
  cases s with
  | md2 r => exact ⟨md2Compress_x_length r blk h.1, (md2Compress_c_length r blk).trans h.2⟩
  | _ => trivial

theorem compressAll_WF (s : HashRegs) (x : Bytes) (h : s.WF) : (compressAll s x).WF := by
  unfold compressAll
  generalize fullBlocks s.alg.blockBytes x = l
  induction l generalizing s with
  | nil => exact h
  | cons b l ih => exact ih (compress s b) (compress_WF s b h)

theorem ivOf_WF (a : Alg) : (ivOf a).WF := by
  cases a <;> trivial

theorem HashCtx.wiped_WF : HashCtx.wiped.WF :=
  ⟨⟨by simp, by simp⟩, by decide, fun _ => rfl⟩

theorem HmacCtx.wiped_WF : HmacCtx.wiped.WF :=
  ⟨by decide, HashCtx.wiped_WF, fun h => absurd h (by decide), fun _ => rfl⟩

theorem ctxInit_WF (a : Alg) : (ctxInit a).WF :=
  ⟨ivOf_WF a, ctxInit_pending_lt a, fun h => absurd h (by simp [ctxInit])⟩

theorem absorb_WF (c : HashCtx) (x : Bytes) (h : c.WF) (ha : c.phase = .active) : (absorb c x).WF := by
  have hp := absorb_pending_lt c x h.pending_lt
  refine ⟨?_, hp, ?_⟩
  · rw [absorb_eq c x h.pending_lt]; exact compressAll_WF _ _ h.regs
  · rw [absorb_eq c x h.pending_lt]; simp [ha]

theorem absorb_phase (c : HashCtx) (x : Bytes) (hp : c.pending.length < c.alg.blockBytes) :
    (absorb c x).phase = c.phase := by rw [absorb_eq c x hp]

theorem encodeDigest_length (s : HashRegs) (h : s.WF) : (encodeDigest s).length = s.alg.digestBytes := by
  cases s with
  | md2 r => exact h.1
  | _ => simp [encodeDigest, md5Encode, sha1Encode, sha224Encode, sha256Encode, sha384Encode, sha512Encode,
      sha2Encode, Sha2Regs.toList, HashRegs.alg, Alg.digestBytes]

theorem digestFrom_length (s : HashRegs) (p : Bytes) (t : W64) (h : s.WF) :
    (digestFrom s p t).length = s.alg.digestBytes := by
  cases s with
  | md2 r => exact md2Compress_x_length _ _ (md2Compress_x_length _ _ h.1)
  | _ => exact (encodeDigest_length _ (compressAll_WF _ _ h)).trans (by rw [compressAll_alg])

theorem messageDigest_length (a : Alg) (x : Bytes) : (messageDigest a x).length = a.digestBytes := by
  rw [messageDigest, digestFrom_length _ _ _ (compressAll_WF _ _ (ivOf_WF a)), compressAll_alg, ivOf_alg]

end Sys2Proof.Machine
end

