-- ==== Sys2Proof/Laws/Hmac.lean ====
section
/-! SUPPORT. The HMAC state machine: the derived key, the inner and the outer pass, said without the buffer. -/

namespace Sys2Proof.Machine

theorem Alg.digest_fits (a : Alg) : a.digestBytes ≤ a.blockBytes := by cases a <;> decide

@[simp] theorem xorPad_length (p : Byte) (k : Bytes) : (xorPad p k).length = k.length := by simp [xorPad]

/-- Everything `deriveKey` computes. -/
theorem deriveKey_eq (a : Alg) (key : Bytes) : deriveKey a key = derivedKey a key := by
  unfold deriveKey derivedKey
  rw [hashWhole_eq]
  simp only
  split
  · rw [messageDigest_length]
  · rfl

/-- The derived key is one block long. -/
theorem derivedKey_length (a : Alg) (key : Bytes) : (derivedKey a key).length = a.blockBytes := by
  have := Alg.digest_fits a
  unfold derivedKey
  split
  · rw [List.length_append, messageDigest_length, List.length_replicate]; omega
  · rw [List.length_append, List.length_replicate]; omega

/-- A fresh context after it has absorbed exactly one block. -/
theorem absorb_one_block (a : Alg) (x : Bytes) (h : x.length = a.blockBytes) :
    absorb (ctxInit a) x =
      { phase := .active, s := compress (ivOf a) x, pending := [], totalLen := BitVec.ofNat 64 a.blockBytes } := by
  rw [absorb_ctxInit, compressAll_of_one _ _ (by rw [ivOf_alg, h]),
    afterBlocks_of_one _ (Alg.blockBytes_pos a) _ h, h]

/-- The outer pass is the digest of the padded key and the inner digest. -/
theorem outerPass_digest (m : HmacCtx) :
    finishDigest (outerPass m) = messageDigest m.alg (xorPad outerPad m.k ++ finishDigest m.h) := by
  unfold outerPass finish
  rw [absorb_absorb _ _ _ (ctxInit_pending_lt _)]
  exact hashWhole_eq _ _

/-- The context right after `HMAC_INIT`. -/
def hmacStart (a : Alg) (key : Bytes) : HmacCtx :=
  { phase := .active, alg := a, k := derivedKey a key,
    h := absorb (ctxInit a) (xorPad innerPad (derivedKey a key)) }

theorem hmacStart_WF (a : Alg) (key : Bytes) : (hmacStart a key).WF := by
  refine ⟨derivedKey_length a key, absorb_WF _ _ (ctxInit_WF a) rfl, fun _ => ⟨?_, ?_⟩, fun h => absurd h (by simp [hmacStart])⟩
  · exact absorb_phase _ _ (ctxInit_pending_lt a)
  · exact (absorb_alg _ _).trans (ctxInit_alg a)

end Sys2Proof.Machine
end

