-- ==== Sys2Proof/Laws/Exec.lean ====
section
/-! SUPPORT. The meanings of the commands by class: each of the 24 instructions is one of seven shapes, and what `exec`
answers is said once per shape. -/

namespace Sys2Proof.Machine

/-! ## The seven shapes -/

/-- Every instruction has one of the seven shapes. -/
theorem instr_cases (i : Instr) :
    (∃ a, i = hashInitOf a) ∨ (∃ data, i = .hashUpdate data) ∨ i = .hashFinal ∨
      (∃ a key, i = hmacInitOf a key) ∨ (∃ data, i = .hmacUpdate data) ∨ i = .hmacFinal ∨
      (∃ d z key tweak data, i = tfOf d z key tweak data) := by
  cases i with
  | hashInitMd2 => exact .inl ⟨.md2, rfl⟩
  | hashInitMd5 => exact .inl ⟨.md5, rfl⟩
  | hashInitSha1 => exact .inl ⟨.sha1, rfl⟩
  | hashInitSha224 => exact .inl ⟨.sha224, rfl⟩
  | hashInitSha256 => exact .inl ⟨.sha256, rfl⟩
  | hashInitSha384 => exact .inl ⟨.sha384, rfl⟩
  | hashInitSha512 => exact .inl ⟨.sha512, rfl⟩
  | hashUpdate data => exact .inr (.inl ⟨data, rfl⟩)
  | hashFinal => exact .inr (.inr (.inl rfl))
  | hmacInitMd2 k => exact .inr (.inr (.inr (.inl ⟨.md2, k, rfl⟩)))
  | hmacInitMd5 k => exact .inr (.inr (.inr (.inl ⟨.md5, k, rfl⟩)))
  | hmacInitSha1 k => exact .inr (.inr (.inr (.inl ⟨.sha1, k, rfl⟩)))
  | hmacInitSha224 k => exact .inr (.inr (.inr (.inl ⟨.sha224, k, rfl⟩)))
  | hmacInitSha256 k => exact .inr (.inr (.inr (.inl ⟨.sha256, k, rfl⟩)))
  | hmacInitSha384 k => exact .inr (.inr (.inr (.inl ⟨.sha384, k, rfl⟩)))
  | hmacInitSha512 k => exact .inr (.inr (.inr (.inl ⟨.sha512, k, rfl⟩)))
  | hmacUpdate data => exact .inr (.inr (.inr (.inr (.inl ⟨data, rfl⟩))))
  | hmacFinal => exact .inr (.inr (.inr (.inr (.inr (.inl rfl)))))
  | tfEnc256 k t x => exact .inr (.inr (.inr (.inr (.inr (.inr ⟨.encrypt, .b256, k, t, x, rfl⟩)))))
  | tfEnc512 k t x => exact .inr (.inr (.inr (.inr (.inr (.inr ⟨.encrypt, .b512, k, t, x, rfl⟩)))))
  | tfEnc1024 k t x => exact .inr (.inr (.inr (.inr (.inr (.inr ⟨.encrypt, .b1024, k, t, x, rfl⟩)))))
  | tfDec256 k t x => exact .inr (.inr (.inr (.inr (.inr (.inr ⟨.decrypt, .b256, k, t, x, rfl⟩)))))
  | tfDec512 k t x => exact .inr (.inr (.inr (.inr (.inr (.inr ⟨.decrypt, .b512, k, t, x, rfl⟩)))))
  | tfDec1024 k t x => exact .inr (.inr (.inr (.inr (.inr (.inr ⟨.decrypt, .b1024, k, t, x, rfl⟩)))))

/-- The algorithm and the key of an `HMAC_INIT` can be read off it. -/
theorem hmacInitOf_inj {a b : Alg} {k k' : Bytes} (h : hmacInitOf a k = hmacInitOf b k') : a = b ∧ k = k' := by
  revert h; cases a <;> cases b <;> simp [hmacInitOf]

/-- The algorithm of a `HASH_INIT` can be read off it. -/
theorem hashInitOf_inj {a b : Alg} (h : hashInitOf a = hashInitOf b) : a = b := by
  revert h; cases a <;> cases b <;> simp [hashInitOf]

/-- The direction, the size and the operands of a Threefish command can be read off it. -/
theorem tfOf_inj {d d' : Dir} {z z' : TfSize} {k t x k' t' x' : Bytes} (h : tfOf d z k t x = tfOf d' z' k' t' x') :
    d = d' ∧ z = z' ∧ k = k' ∧ t = t' ∧ x = x' := by
  revert h; cases d <;> cases z <;> cases d' <;> cases z' <;> simp [tfOf]

/-- A `HASH_INIT` has none of the other shapes. -/
theorem hashInitOf_ne (a : Alg) :
    hashInitOf a ≠ .hashFinal ∧ hashInitOf a ≠ .hmacFinal ∧ (∀ x, hashInitOf a ≠ .hashUpdate x) ∧
      (∀ x, hashInitOf a ≠ .hmacUpdate x) ∧ (∀ b k, hashInitOf a ≠ hmacInitOf b k) ∧
      (∀ d z k t x, hashInitOf a ≠ tfOf d z k t x) := by
  refine ⟨by cases a <;> simp [hashInitOf], by cases a <;> simp [hashInitOf], by cases a <;> simp [hashInitOf],
    by cases a <;> simp [hashInitOf], fun b k => ?_, fun d z k t x => ?_⟩
  · cases a <;> cases b <;> simp [hashInitOf, hmacInitOf]
  · cases a <;> cases d <;> cases z <;> simp [hashInitOf, tfOf]

/-- An `HMAC_INIT` has none of the other shapes. -/
theorem hmacInitOf_ne (a : Alg) (k : Bytes) :
    hmacInitOf a k ≠ .hashFinal ∧ hmacInitOf a k ≠ .hmacFinal ∧ (∀ x, hmacInitOf a k ≠ .hashUpdate x) ∧
      (∀ x, hmacInitOf a k ≠ .hmacUpdate x) ∧ (∀ b, hmacInitOf a k ≠ hashInitOf b) ∧
      (∀ d z k' t x, hmacInitOf a k ≠ tfOf d z k' t x) := by
  refine ⟨by cases a <;> simp [hmacInitOf], by cases a <;> simp [hmacInitOf], by cases a <;> simp [hmacInitOf],
    by cases a <;> simp [hmacInitOf], fun b h => (hashInitOf_ne b).2.2.2.2.1 a k h.symm, fun d z k' t x => ?_⟩
  cases a <;> cases d <;> cases z <;> simp [hmacInitOf, tfOf]

/-- A Threefish command has none of the other shapes. -/
theorem tfOf_ne (d : Dir) (z : TfSize) (k t x : Bytes) :
    tfOf d z k t x ≠ .hashFinal ∧ tfOf d z k t x ≠ .hmacFinal ∧ (∀ y, tfOf d z k t x ≠ .hashUpdate y) ∧
      (∀ y, tfOf d z k t x ≠ .hmacUpdate y) := by
  refine ⟨?_, ?_, ?_, ?_⟩ <;> cases d <;> cases z <;> simp [tfOf]

/-! ## What `exec` answers, shape by shape -/

theorem exec_hashInitOf (a : Alg) (s : State) :
    exec (hashInitOf a) s = .next ((s.setH (ctxInit a)).answer statusOk []) := by cases a <;> rfl

theorem exec_hashUpdate_idle (data : Bytes) (s : State) (h : s.h.phase = .idle) :
    exec (.hashUpdate data) s = .next (s.answer (statusOf .invalidSequence) []) := by
  simp only [exec, execHashUpdate, h]; rfl

theorem exec_hashUpdate_active (data : Bytes) (s : State) (h : s.h.phase = .active) :
    exec (.hashUpdate data) s = .next ((s.setH (absorb s.h data)).answer statusOk []) := by
  simp only [exec, execHashUpdate, h]; rfl

theorem exec_hashFinal_idle (s : State) (h : s.h.phase = .idle) :
    exec .hashFinal s = .next (s.answer (statusOf .invalidSequence) []) := by
  simp only [exec, execHashFinal, h]; rfl

theorem exec_hashFinal_active (s : State) (h : s.h.phase = .active) :
    exec .hashFinal s = .next ((s.setH HashCtx.wiped).answer statusOk (finishDigest s.h)) := by
  simp only [exec, execHashFinal, h]; rfl

theorem exec_hmacInitOf (a : Alg) (key : Bytes) (s : State) :
    exec (hmacInitOf a key) s = .next ((s.setM (hmacStart a key)).answer statusOk []) := by
  unfold hmacStart
  rw [← deriveKey_eq]
  cases a <;> rfl

theorem exec_hmacUpdate_idle (data : Bytes) (s : State) (h : s.m.phase = .idle) :
    exec (.hmacUpdate data) s = .next (s.answer (statusOf .invalidSequence) []) := by
  simp only [exec, execHmacUpdate, h]; rfl

theorem exec_hmacUpdate_active (data : Bytes) (s : State) (h : s.m.phase = .active) :
    exec (.hmacUpdate data) s = .next ((s.setM { s.m with h := absorb s.m.h data }).answer statusOk []) := by
  simp only [exec, execHmacUpdate, h]; rfl

theorem exec_hmacFinal_idle (s : State) (h : s.m.phase = .idle) :
    exec .hmacFinal s = .next (s.answer (statusOf .invalidSequence) []) := by
  simp only [exec, execHmacFinal, h]; rfl

theorem exec_hmacFinal_active (s : State) (h : s.m.phase = .active) :
    exec .hmacFinal s = .next ((s.setM HmacCtx.wiped).answer statusOk (finishDigest (outerPass s.m))) := by
  simp only [exec, execHmacFinal, h]; rfl

theorem exec_tfOf (d : Dir) (z : TfSize) (key tweak data : Bytes) (s : State) :
    exec (tfOf d z key tweak data) s = .next (s.answer statusOk (tfOutput d z key tweak data)) := by
  cases d <;> cases z <;> rfl

/-- Everything a command can do: it answers a next state in which one response has been added, the waiting inputs are as
they were, and `H` and `M` are what the shape and the phase say. -/
theorem exec_cases (i : Instr) (s : State) :
    ∃ c m r, exec i s = .next { h := c, m := m, inputs := s.inputs, responses := s.responses ++ [r] } ∧
      ((∃ a, i = hashInitOf a ∧ c = ctxInit a ∧ m = s.m ∧ r = okResponse []) ∨
       (∃ data, i = .hashUpdate data ∧ s.h.phase = .active ∧ c = absorb s.h data ∧ m = s.m ∧ r = okResponse []) ∨
       (i = .hashFinal ∧ s.h.phase = .active ∧ c = HashCtx.wiped ∧ m = s.m ∧ r = okResponse (finishDigest s.h)) ∨
       (((∃ data, i = .hashUpdate data) ∨ i = .hashFinal) ∧ s.h.phase = .idle ∧ c = s.h ∧ m = s.m ∧
         r = errorResponse .invalidSequence) ∨
       (∃ a key, i = hmacInitOf a key ∧ c = s.h ∧ m = hmacStart a key ∧ r = okResponse []) ∨
       (∃ data, i = .hmacUpdate data ∧ s.m.phase = .active ∧ c = s.h ∧ m = { s.m with h := absorb s.m.h data } ∧
         r = okResponse []) ∨
       (i = .hmacFinal ∧ s.m.phase = .active ∧ c = s.h ∧ m = HmacCtx.wiped ∧
         r = okResponse (finishDigest (outerPass s.m))) ∨
       (((∃ data, i = .hmacUpdate data) ∨ i = .hmacFinal) ∧ s.m.phase = .idle ∧ c = s.h ∧ m = s.m ∧
         r = errorResponse .invalidSequence) ∨
       (∃ d z key tweak data, i = tfOf d z key tweak data ∧ c = s.h ∧ m = s.m ∧
         r = okResponse (tfOutput d z key tweak data))) := by
  rcases instr_cases i with ⟨a, rfl⟩ | ⟨data, rfl⟩ | rfl | ⟨a, key, rfl⟩ | ⟨data, rfl⟩ | rfl | ⟨d, z, k, t, x, rfl⟩
  · exact ⟨_, _, _, exec_hashInitOf a s, .inl ⟨a, rfl, rfl, rfl, rfl⟩⟩
  · cases h : s.h.phase
    · exact ⟨_, _, _, exec_hashUpdate_idle data s h,
        .inr (.inr (.inr (.inl ⟨.inl ⟨data, rfl⟩, rfl, rfl, rfl, rfl⟩)))⟩
    · exact ⟨_, _, _, exec_hashUpdate_active data s h, .inr (.inl ⟨data, rfl, rfl, rfl, rfl, rfl⟩)⟩
  · cases h : s.h.phase
    · exact ⟨_, _, _, exec_hashFinal_idle s h, .inr (.inr (.inr (.inl ⟨.inr rfl, rfl, rfl, rfl, rfl⟩)))⟩
    · exact ⟨_, _, _, exec_hashFinal_active s h, .inr (.inr (.inl ⟨rfl, rfl, rfl, rfl, rfl⟩))⟩
  · exact ⟨_, _, _, exec_hmacInitOf a key s,
      .inr (.inr (.inr (.inr (.inl ⟨a, key, rfl, rfl, rfl, rfl⟩))))⟩
  · cases h : s.m.phase
    · exact ⟨_, _, _, exec_hmacUpdate_idle data s h,
        .inr (.inr (.inr (.inr (.inr (.inr (.inr (.inl ⟨.inl ⟨data, rfl⟩, rfl, rfl, rfl, rfl⟩)))))))⟩
    · exact ⟨_, _, _, exec_hmacUpdate_active data s h,
        .inr (.inr (.inr (.inr (.inr (.inl ⟨data, rfl, rfl, rfl, rfl, rfl⟩)))))⟩
  · cases h : s.m.phase
    · exact ⟨_, _, _, exec_hmacFinal_idle s h,
        .inr (.inr (.inr (.inr (.inr (.inr (.inr (.inl ⟨.inr rfl, rfl, rfl, rfl, rfl⟩)))))))⟩
    · exact ⟨_, _, _, exec_hmacFinal_active s h,
        .inr (.inr (.inr (.inr (.inr (.inr (.inl ⟨rfl, rfl, rfl, rfl, rfl⟩))))))⟩
  · exact ⟨_, _, _, exec_tfOf d z k t x s,
      .inr (.inr (.inr (.inr (.inr (.inr (.inr (.inr ⟨d, z, k, t, x, rfl, rfl, rfl, rfl⟩)))))))⟩

/-- What a command does to `H` and `M` and the response it adds depend on neither the waiting inputs nor the responses so
far. -/
theorem exec_uniform (i : Instr) (s : State) :
    ∃ c m r, ∀ (l : List Input) (rs : List Response),
      exec i { s with inputs := l, responses := rs } = .next { h := c, m := m, inputs := l, responses := rs ++ [r] } := by
  rcases instr_cases i with ⟨a, rfl⟩ | ⟨data, rfl⟩ | rfl | ⟨a, key, rfl⟩ | ⟨data, rfl⟩ | rfl | ⟨d, z, k, t, x, rfl⟩
  · exact ⟨ctxInit a, s.m, okResponse [], fun l rs => exec_hashInitOf a _⟩
  · cases h : s.h.phase
    · exact ⟨s.h, s.m, errorResponse .invalidSequence, fun l rs => exec_hashUpdate_idle data _ h⟩
    · exact ⟨absorb s.h data, s.m, okResponse [],
        fun l rs => exec_hashUpdate_active data { s with inputs := l, responses := rs } h⟩
  · cases h : s.h.phase
    · exact ⟨s.h, s.m, errorResponse .invalidSequence, fun l rs => exec_hashFinal_idle _ h⟩
    · exact ⟨HashCtx.wiped, s.m, okResponse (finishDigest s.h),
        fun l rs => exec_hashFinal_active { s with inputs := l, responses := rs } h⟩
  · exact ⟨s.h, hmacStart a key, okResponse [], fun l rs => exec_hmacInitOf a key _⟩
  · cases h : s.m.phase
    · exact ⟨s.h, s.m, errorResponse .invalidSequence, fun l rs => exec_hmacUpdate_idle data _ h⟩
    · exact ⟨s.h, { s.m with h := absorb s.m.h data }, okResponse [],
        fun l rs => exec_hmacUpdate_active data { s with inputs := l, responses := rs } h⟩
  · cases h : s.m.phase
    · exact ⟨s.h, s.m, errorResponse .invalidSequence, fun l rs => exec_hmacFinal_idle _ h⟩
    · exact ⟨s.h, HmacCtx.wiped, okResponse (finishDigest (outerPass s.m)),
        fun l rs => exec_hmacFinal_active { s with inputs := l, responses := rs } h⟩
  · exact ⟨s.h, s.m, okResponse (tfOutput d z k t x), fun l rs => exec_tfOf d z k t x _⟩

/-! ## The step -/

theorem step_no_input (s : State) (h : s.inputs = []) : step s = .next s := by simp [step, h, awaitCommand]

theorem step_reset (s : State) (rest : List Input) (h : s.inputs = .reset :: rest) :
    step s = .next { h := HashCtx.wiped, m := HmacCtx.wiped, inputs := rest, responses := s.responses } := by
  simp only [step, h]; rfl

theorem step_accept (s : State) (c : Command) (rest : List Input) (i : Instr) (h : s.inputs = .command c :: rest)
    (hd : decode c = .accept i) : step s = exec i (s.setInputs rest) := by simp only [step, h, hd]

theorem step_reject (s : State) (c : Command) (rest : List Input) (e : CmdError)
    (h : s.inputs = .command c :: rest) (hd : decode c = .reject e) :
    step s = .next ((s.setInputs rest).answer (statusOf e) []) := by simp only [step, h, hd]; rfl

/-- One run of several steps is a first step and the run of the rest. -/
theorem run_succ (n : Nat) (s s' : State) (h : step s = .next s') :
    Host.Core.run Sys2Proof.core (n + 1) s = Host.Core.run Sys2Proof.core n s' := by
  simp only [Host.Core.run, Sys2Proof.core, h]

end Sys2Proof.Machine
end

