-- ==== Sys2Proof/Laws/PerInstr.lean ====
section
/-! SUPPORT. Facts about every instruction as syntax, one lemma per constructor. -/

namespace Sys2Proof.Laws

/-- The shape of a legal command: zero reserved bits; `ALG`, `DIR` and `BSB` zero where the `OP` does not use them, and no
byte in an operand the `OP` does not take (spec/30_encoding.md R91, R93, R96). -/
def CommandShape (c : Command) : Prop :=
  fieldRsv c.cmd = 0 ∧
  (fieldOp c.cmd ≠ 0x9 → fieldDir c.cmd = 0 ∧ fieldBsb c.cmd = 0 ∧ c.tweak = []) ∧
  (fieldOp c.cmd ≠ 0x1 → fieldOp c.cmd ≠ 0x5 → fieldAlg c.cmd = 0) ∧
  (fieldOp c.cmd ∈ [0x1, 0x3, 0x5, 0x7] → c.data = []) ∧
  (fieldOp c.cmd ∉ [0x5, 0x9] → c.key = [])

theorem CommandShape.hashInit (w : W32)
    (h : fieldOp w = 0x1 ∧ fieldRsv w = 0 ∧ fieldDir w = 0 ∧ fieldBsb w = 0) : CommandShape ⟨w, [], [], []⟩ := by
  obtain ⟨h1, h2, h3, h4⟩ := h
  simp [CommandShape, h1, h2, h3, h4]

theorem CommandShape.hmacInit (w : W32) (key : Bytes)
    (h : fieldOp w = 0x5 ∧ fieldRsv w = 0 ∧ fieldDir w = 0 ∧ fieldBsb w = 0) : CommandShape ⟨w, key, [], []⟩ := by
  obtain ⟨h1, h2, h3, h4⟩ := h
  simp [CommandShape, h1, h2, h3, h4]

theorem CommandShape.update (w : W32) (data : Bytes)
    (h : (fieldOp w = 0x2 ∨ fieldOp w = 0x6) ∧ fieldRsv w = 0 ∧ fieldAlg w = 0 ∧ fieldDir w = 0 ∧ fieldBsb w = 0) :
    CommandShape ⟨w, [], [], data⟩ := by
  obtain ⟨h1 | h1, h2, h3, h4, h5⟩ := h <;> simp [CommandShape, h1, h2, h3, h4, h5]

theorem CommandShape.final (w : W32)
    (h : (fieldOp w = 0x3 ∨ fieldOp w = 0x7) ∧ fieldRsv w = 0 ∧ fieldAlg w = 0 ∧ fieldDir w = 0 ∧ fieldBsb w = 0) :
    CommandShape ⟨w, [], [], []⟩ := by
  obtain ⟨h1 | h1, h2, h3, h4, h5⟩ := h <;> simp [CommandShape, h1, h2, h3, h4, h5]

theorem CommandShape.threefish (w : W32) (key tweak data : Bytes)
    (h : fieldOp w = 0x9 ∧ fieldRsv w = 0 ∧ fieldAlg w = 0) : CommandShape ⟨w, key, tweak, data⟩ := by
  obtain ⟨h1, h2, h3⟩ := h
  simp [CommandShape, h1, h2, h3]

/-- The command an instruction is encoded as has the shape of a legal command. -/
def EncodedWord.Statement (i : Instr) : Prop := CommandShape (encode i)

theorem EncodedWord.hashInitMd2 : EncodedWord.Statement .hashInitMd2 :=
  CommandShape.hashInit 0x00000001 (by decide)

theorem EncodedWord.hashInitMd5 : EncodedWord.Statement .hashInitMd5 :=
  CommandShape.hashInit 0x00000011 (by decide)

theorem EncodedWord.hashInitSha1 : EncodedWord.Statement .hashInitSha1 :=
  CommandShape.hashInit 0x00000021 (by decide)

theorem EncodedWord.hashInitSha224 : EncodedWord.Statement .hashInitSha224 :=
  CommandShape.hashInit 0x00000031 (by decide)

theorem EncodedWord.hashInitSha256 : EncodedWord.Statement .hashInitSha256 :=
  CommandShape.hashInit 0x00000041 (by decide)

theorem EncodedWord.hashInitSha384 : EncodedWord.Statement .hashInitSha384 :=
  CommandShape.hashInit 0x00000051 (by decide)

theorem EncodedWord.hashInitSha512 : EncodedWord.Statement .hashInitSha512 :=
  CommandShape.hashInit 0x00000061 (by decide)

theorem EncodedWord.hashUpdate (data : Bytes) : EncodedWord.Statement (.hashUpdate data) :=
  CommandShape.update 0x00000002 data (by decide)

theorem EncodedWord.hashFinal : EncodedWord.Statement .hashFinal :=
  CommandShape.final 0x00000003 (by decide)

theorem EncodedWord.hmacInitMd2 (key : Bytes) : EncodedWord.Statement (.hmacInitMd2 key) :=
  CommandShape.hmacInit 0x00000005 key (by decide)

theorem EncodedWord.hmacInitMd5 (key : Bytes) : EncodedWord.Statement (.hmacInitMd5 key) :=
  CommandShape.hmacInit 0x00000015 key (by decide)

theorem EncodedWord.hmacInitSha1 (key : Bytes) : EncodedWord.Statement (.hmacInitSha1 key) :=
  CommandShape.hmacInit 0x00000025 key (by decide)

theorem EncodedWord.hmacInitSha224 (key : Bytes) : EncodedWord.Statement (.hmacInitSha224 key) :=
  CommandShape.hmacInit 0x00000035 key (by decide)

theorem EncodedWord.hmacInitSha256 (key : Bytes) : EncodedWord.Statement (.hmacInitSha256 key) :=
  CommandShape.hmacInit 0x00000045 key (by decide)

theorem EncodedWord.hmacInitSha384 (key : Bytes) : EncodedWord.Statement (.hmacInitSha384 key) :=
  CommandShape.hmacInit 0x00000055 key (by decide)

theorem EncodedWord.hmacInitSha512 (key : Bytes) : EncodedWord.Statement (.hmacInitSha512 key) :=
  CommandShape.hmacInit 0x00000065 key (by decide)

theorem EncodedWord.hmacUpdate (data : Bytes) : EncodedWord.Statement (.hmacUpdate data) :=
  CommandShape.update 0x00000006 data (by decide)

theorem EncodedWord.hmacFinal : EncodedWord.Statement .hmacFinal :=
  CommandShape.final 0x00000007 (by decide)

theorem EncodedWord.tfEnc256 (key tweak data : Bytes) : EncodedWord.Statement (.tfEnc256 key tweak data) :=
  CommandShape.threefish 0x01000009 key tweak data (by decide)

theorem EncodedWord.tfEnc512 (key tweak data : Bytes) : EncodedWord.Statement (.tfEnc512 key tweak data) :=
  CommandShape.threefish 0x02000009 key tweak data (by decide)

theorem EncodedWord.tfEnc1024 (key tweak data : Bytes) : EncodedWord.Statement (.tfEnc1024 key tweak data) :=
  CommandShape.threefish 0x04000009 key tweak data (by decide)

theorem EncodedWord.tfDec256 (key tweak data : Bytes) : EncodedWord.Statement (.tfDec256 key tweak data) :=
  CommandShape.threefish 0x01000109 key tweak data (by decide)

theorem EncodedWord.tfDec512 (key tweak data : Bytes) : EncodedWord.Statement (.tfDec512 key tweak data) :=
  CommandShape.threefish 0x02000109 key tweak data (by decide)

theorem EncodedWord.tfDec1024 (key tweak data : Bytes) : EncodedWord.Statement (.tfDec1024 key tweak data) :=
  CommandShape.threefish 0x04000109 key tweak data (by decide)

end Sys2Proof.Laws
end

