-- ==== Sys2Proof/Laws/Threefish.lean ====
section
/-! SUPPORT. The Threefish round engine: the inverse of each of its pieces, and lengths. -/

namespace Sys2Proof.Machine

/-! ## MIX lanes -/

theorem tfUnmix_mix (a b : W64) (r : Nat) (h : r < 64) : tfUnmix (tfMix a b r).1 (tfMix a b r).2 r = (a, b) := by
  have h1 : (rotl b r ^^^ (a + b)) ^^^ (a + b) = rotl b r := by
    rw [BitVec.xor_assoc, BitVec.xor_self, BitVec.xor_zero]
  simp only [tfUnmix, tfMix, h1, rotr_rotl b r h, BitVec.add_sub_cancel]

theorem tfMix_unmix (a b : W64) (r : Nat) (h : r < 64) :
    tfMix (tfUnmix a b r).1 (tfUnmix a b r).2 r = (a, b) := by
  simp only [tfUnmix, tfMix, rotl_rotr _ r h, BitVec.sub_add_cancel]
  rw [BitVec.xor_assoc, BitVec.xor_self, BitVec.xor_zero]

@[simp] theorem tfMixLanes_length (rs : List Nat) (v : List W64) : (tfMixLanes rs v).length = v.length := by
  induction rs, v using tfMixLanes.induct with
  | case1 r rs a b v ih => simp [tfMixLanes, ih]
  | case2 => simp_all [tfMixLanes]

@[simp] theorem tfUnmixLanes_length (rs : List Nat) (v : List W64) : (tfUnmixLanes rs v).length = v.length := by
  induction rs, v using tfUnmixLanes.induct with
  | case1 r rs a b v ih => simp [tfUnmixLanes, ih]
  | case2 => simp_all [tfUnmixLanes]

theorem tfUnmixLanes_mixLanes (rs : List Nat) (v : List W64) (h : ∀ r ∈ rs, r < 64) :
    tfUnmixLanes rs (tfMixLanes rs v) = v := by
  induction rs, v using tfMixLanes.induct with
  | case1 r rs a b v ih =>
    have h1 := tfUnmix_mix a b r (h r (by simp))
    simp only [tfMixLanes, tfUnmixLanes, h1, ih (fun x hx => h x (by simp [hx]))]
  | case2 rs v hn =>
    rw [tfMixLanes]
    · rw [tfUnmixLanes]; exact hn
    · exact hn

theorem tfMixLanes_unmixLanes (rs : List Nat) (v : List W64) (h : ∀ r ∈ rs, r < 64) :
    tfMixLanes rs (tfUnmixLanes rs v) = v := by
  induction rs, v using tfUnmixLanes.induct with
  | case1 r rs a b v ih =>
    have h1 := tfMix_unmix a b r (h r (by simp))
    simp only [tfMixLanes, tfUnmixLanes, h1, ih (fun x hx => h x (by simp [hx]))]
  | case2 rs v hn =>
    rw [tfUnmixLanes]
    · rw [tfMixLanes]; exact hn
    · exact hn

theorem tfRot_lt (z : TfSize) (d : Nat) : ∀ r ∈ tfRot z d, r < 64 := by
  have h : ∀ k, k < 8 → ∀ r ∈ (tfRotTable z).getD k [], r < 64 := by cases z <;> decide
  exact h (d % 8) (Nat.mod_lt _ (by decide))

/-! ## Permutations and rounds -/

@[simp] theorem tfPermute_length (p : List Nat) (f : List W64) : (tfPermute p f).length = p.length := by
  simp [tfPermute]

@[simp] theorem tfPerm_length (z : TfSize) : (tfPerm z).length = z.words := by cases z <;> rfl

@[simp] theorem tfInvPerm_length (z : TfSize) : (tfInvPerm z).length = z.words := by cases z <;> rfl

theorem tfPermute_getD (p : List Nat) (f : List W64) (i : Nat) (h : i < p.length) :
    (tfPermute p f).getD i 0 = f.getD (p.getD i 0) 0 := by
  simp [tfPermute, List.getD_eq_getElem?_getD, h]

theorem tfPermute_comp (p q : List Nat) (f : List W64) (n : Nat) (hp : p.length = n) (hq : q.length = n)
    (hf : f.length = n) (h : ∀ i, i < n → q.getD i 0 < n ∧ p.getD (q.getD i 0) 0 = i) :
    tfPermute q (tfPermute p f) = f := by
  apply List.ext_getElem
  · simp [hq, hf]
  · intro i h1 h2
    have hi : i < n := hf ▸ h2
    have h3 := tfPermute_getD q (tfPermute p f) i (by omega)
    rw [tfPermute_getD p f _ (by have := (h i hi).1; omega), (h i hi).2] at h3
    rwa [List.getD_eq_getElem _ _ h1, List.getD_eq_getElem _ _ h2] at h3

theorem tfPerm_inverse (z : TfSize) (i : Nat) (h : i < z.words) :
    ((tfInvPerm z).getD i 0 < z.words ∧ (tfPerm z).getD ((tfInvPerm z).getD i 0) 0 = i) ∧
    ((tfPerm z).getD i 0 < z.words ∧ (tfInvPerm z).getD ((tfPerm z).getD i 0) 0 = i) := by
  revert h; revert i; cases z <;> decide

@[simp] theorem tfRound_length (z : TfSize) (d : Nat) (v : List W64) : (tfRound z d v).length = z.words := by
  simp [tfRound]

@[simp] theorem tfUnround_length (z : TfSize) (d : Nat) (v : List W64) : (tfUnround z d v).length = z.words := by
  simp [tfUnround]

theorem tfUnround_round (z : TfSize) (d : Nat) (v : List W64) (h : v.length = z.words) :
    tfUnround z d (tfRound z d v) = v := by
  unfold tfUnround tfRound
  rw [tfPermute_comp (tfPerm z) (tfInvPerm z) _ z.words (by simp) (by simp) (by simpa using h)
    (fun i hi => (tfPerm_inverse z i hi).1), tfUnmixLanes_mixLanes _ _ (tfRot_lt z d)]

theorem tfRound_unround (z : TfSize) (d : Nat) (v : List W64) (h : v.length = z.words) :
    tfRound z d (tfUnround z d v) = v := by
  unfold tfUnround tfRound
  rw [tfMixLanes_unmixLanes _ _ (tfRot_lt z d),
    tfPermute_comp (tfInvPerm z) (tfPerm z) _ z.words (by simp) (by simp) h
      (fun i hi => (tfPerm_inverse z i hi).2)]

/-! ## Subkeys -/

@[simp] theorem tfSubkey_length (n : Nat) (k t : List W64) (s : Nat) : (tfSubkey n k t s).length = n := by
  simp [tfSubkey]

theorem tfSub_add (v sk : List W64) (h : v.length = sk.length) : tfSubSubkey (tfAddSubkey v sk) sk = v := by
  induction v generalizing sk with
  | nil => simp [tfAddSubkey, tfSubSubkey]
  | cons a v ih =>
    cases sk with
    | nil => simp at h
    | cons b sk =>
      have := ih sk (by simpa using h)
      simp_all [tfAddSubkey, tfSubSubkey]

theorem tfAdd_sub (v sk : List W64) (h : v.length = sk.length) : tfAddSubkey (tfSubSubkey v sk) sk = v := by
  induction v generalizing sk with
  | nil => simp [tfAddSubkey, tfSubSubkey]
  | cons a v ih =>
    cases sk with
    | nil => simp at h
    | cons b sk =>
      have := ih sk (by simpa using h)
      simp_all [tfAddSubkey, tfSubSubkey]

@[simp] theorem tfAddSubkey_length (v sk : List W64) : (tfAddSubkey v sk).length = min v.length sk.length := by
  simp [tfAddSubkey]

@[simp] theorem tfSubSubkey_length (v sk : List W64) : (tfSubSubkey v sk).length = min v.length sk.length := by
  simp [tfSubSubkey]

theorem tfSubkey_getD (n : Nat) (k t : List W64) (s i : Nat) (h : i < n) :
    (tfSubkey n k t s).getD i 0 = k.getD ((s + i) % (n + 1)) 0 + tfSubkeyExtra n t s i := by
  simp [tfSubkey, List.getD_eq_getElem?_getD, h]

/-! ## One round with its subkey, and its inverse -/

@[simp] theorem tfEncryptRound_length (z : TfSize) (k t v : List W64) (d : Nat) :
    (tfEncryptRound z k t v d).length = z.words := by simp [tfEncryptRound]

theorem tfDecryptRound_length (z : TfSize) (k t : List W64) (d : Nat) (v : List W64) :
    (tfDecryptRound z k t d v).length = z.words := by
  unfold tfDecryptRound
  simp only
  split <;> simp

theorem tfDecryptRound_encryptRound (z : TfSize) (k t v : List W64) (d : Nat) (h : v.length = z.words) :
    tfDecryptRound z k t d (tfEncryptRound z k t v d) = v := by
  unfold tfDecryptRound tfEncryptRound
  by_cases hd : d % 4 = 0
  · simp only [hd, if_true]
    rw [tfUnround_round _ _ _ (by simp [h]), tfSub_add _ _ (by simp [h])]
  · simp only [hd, if_false]
    exact tfUnround_round _ _ _ h

theorem tfEncryptRound_decryptRound (z : TfSize) (k t v : List W64) (d : Nat) (h : v.length = z.words) :
    tfEncryptRound z k t (tfDecryptRound z k t d v) d = v := by
  unfold tfDecryptRound tfEncryptRound
  by_cases hd : d % 4 = 0
  · simp only [hd, if_true]
    rw [tfAdd_sub _ _ (by simp), tfRound_unround _ _ _ h]
  · simp only [hd, if_false]
    exact tfRound_unround _ _ _ h

/-- The output is one block long, whatever the operands. -/
theorem tfOutput_length (d : Dir) (z : TfSize) (key tweak data : Bytes) :
    (tfOutput d z key tweak data).length = z.blockBytes := by
  have hz : 64 / 8 * z.words = z.blockBytes := by cases z <;> rfl
  have hf : ∀ (k t : List W64) (l : List Nat) (v : List W64), v.length = z.words →
      (l.foldl (tfEncryptRound z k t) v).length = z.words := by
    intro k t l
    induction l with
    | nil => intro v h; exact h
    | cons x l ih => intro v _; exact ih _ (tfEncryptRound_length z k t v x)
  have hb : ∀ (k t : List W64) (l : List Nat) (v : List W64), v.length = z.words →
      (l.foldr (tfDecryptRound z k t) v).length = z.words := by
    intro k t l v h
    induction l with
    | nil => exact h
    | cons x l ih => exact tfDecryptRound_length z k t x _
  unfold tfOutput
  simp only
  rw [bytesOfLeWords_length, ← hz]
  congr 1
  cases d
  · simp [tfEncryptWords, hf]
  · exact hb _ _ _ _ (by simp)

end Sys2Proof.Machine
end

