-- ==== Sys2Proof/Tests/Slice0.lean ====
section
/-! SUPPORT. Tests of the model against the values spec/ prints, and a witness for the hypotheses of each statement. Expected
values come from spec/95_test_vectors.md (V1 to V51) and the encodings of spec/30_encoding.md (R91, R96, R100). -/

namespace Sys2Proof.Tests

open Sys2Proof.Machine

/-! ## Helpers -/

/-- The `n` bytes of a numeral written as the spec writes byte strings, first byte first. -/
def hexBytes (n x : Nat) : Bytes := (leOfNat n x).reverse

/-- A command word from its fields, the highest first. -/
def wordOf (bsb : BitVec 16) (rsv : BitVec 7) (dir : BitVec 1) (alg op : BitVec 4) : W32 := bsb ++ rsv ++ dir ++ alg ++ op

/-- The bytes of "abc". -/
def abc : Bytes := [0x61, 0x62, 0x63]

/-- The bytes of "Hi There". -/
def hiThere : Bytes := [0x48, 0x69, 0x20, 0x54, 0x68, 0x65, 0x72, 0x65]

/-- The state after an instruction, where it answers a next one. -/
def after (i : Instr) (s : State) : State :=
  match exec i s with
  | .next t => t
  | .fault _ => s
  | .refused _ => s

/-- Reset, with one input waiting. -/
def waiting (x : Input) : State := { State.reset with inputs := [x] }

/-- A hash context in progress with these bytes pending and nothing compressed. -/
def hashing (a : Alg) (p : Bytes) : State :=
  { State.reset with h := { ctxInit a with pending := p, totalLen := BitVec.ofNat 64 p.length } }

/-- An HMAC context right after `HMAC_INIT`. -/
def macing (a : Alg) (key : Bytes) : State := { State.reset with m := hmacStart a key }

/-- From reset, the `HASH_INIT` `i`, an update with `x` and `HASH_FINAL` answer the digest `d`. -/
def AnswersDigest (i : Instr) (x d : Bytes) : Prop :=
  ∃ t u v, exec i State.reset = .next t ∧ exec (.hashUpdate x) t = .next u ∧ exec .hashFinal u = .next v ∧
    v.responses = [⟨0, []⟩, ⟨0, []⟩, ⟨0, d⟩]

/-- From reset, the `HMAC_INIT` `i`, an update with `x` and `HMAC_FINAL` answer the code `d`. -/
def AnswersMac (i : Instr) (x d : Bytes) : Prop :=
  ∃ t u v, exec i State.reset = .next t ∧ exec (.hmacUpdate x) t = .next u ∧ exec .hmacFinal u = .next v ∧
    v.responses = [⟨0, []⟩, ⟨0, []⟩, ⟨0, d⟩]

/-- From reset, the Threefish command `i` answers the block `d` and changes nothing else. -/
def AnswersBlock (i : Instr) (d : Bytes) : Prop :=
  exec i State.reset = .next { State.reset with responses := [⟨0, d⟩] }

theorem answersDigest (a : Alg) (x d : Bytes) (h : hashWhole a x = d) : AnswersDigest (hashInitOf a) x d := by
  refine ⟨_, _, _, exec_hashInitOf a _, exec_hashUpdate_active x _ rfl, exec_hashFinal_active _ ?_, ?_⟩
  · exact absorb_phase _ _ (ctxInit_pending_lt a)
  · exact congrArg (fun d => [(⟨0, []⟩ : Response), ⟨0, []⟩, ⟨0, d⟩]) h

theorem answersMac (a : Alg) (key x d : Bytes)
    (h : finishDigest (outerPass { hmacStart a key with h := absorb (hmacStart a key).h x }) = d) :
    AnswersMac (hmacInitOf a key) x d :=
  ⟨_, _, _, exec_hmacInitOf a key _, exec_hmacUpdate_active x _ rfl, exec_hmacFinal_active _ rfl,
    congrArg (fun d => [(⟨0, []⟩ : Response), ⟨0, []⟩, ⟨0, d⟩]) h⟩

theorem answersBlock (d : Dir) (z : TfSize) (key tweak data out : Bytes) (h : tfOutput d z key tweak data = out) :
    AnswersBlock (tfOf d z key tweak data) out := by
  rw [AnswersBlock, exec_tfOf, h]; rfl

/-! ## Well-formedness: each check refuses an ill-formed term -/

theorem test_wellFormed_tfEnc256 :
    (Instr.tfEnc256 (rep 0 32) (rep 0 16) (rep 0 32)).wellFormed = true ∧
    (Instr.tfEnc256 (rep 0 31) (rep 0 16) (rep 0 32)).wellFormed = false ∧
    (Instr.tfEnc256 (rep 0 32) (rep 0 17) (rep 0 32)).wellFormed = false ∧
    (Instr.tfEnc256 (rep 0 32) (rep 0 16) (rep 0 33)).wellFormed = false := by decide +kernel

theorem test_wellFormed_tfEnc512 :
    (Instr.tfEnc512 (rep 0 64) (rep 0 16) (rep 0 64)).wellFormed = true ∧
    (Instr.tfEnc512 (rep 0 63) (rep 0 16) (rep 0 64)).wellFormed = false ∧
    (Instr.tfEnc512 (rep 0 64) (rep 0 17) (rep 0 64)).wellFormed = false ∧
    (Instr.tfEnc512 (rep 0 64) (rep 0 16) (rep 0 65)).wellFormed = false := by decide +kernel

theorem test_wellFormed_tfEnc1024 :
    (Instr.tfEnc1024 (rep 0 128) (rep 0 16) (rep 0 128)).wellFormed = true ∧
    (Instr.tfEnc1024 (rep 0 127) (rep 0 16) (rep 0 128)).wellFormed = false ∧
    (Instr.tfEnc1024 (rep 0 128) (rep 0 17) (rep 0 128)).wellFormed = false ∧
    (Instr.tfEnc1024 (rep 0 128) (rep 0 16) (rep 0 129)).wellFormed = false := by decide +kernel

theorem test_wellFormed_tfDec256 :
    (Instr.tfDec256 (rep 0 32) (rep 0 16) (rep 0 32)).wellFormed = true ∧
    (Instr.tfDec256 (rep 0 31) (rep 0 16) (rep 0 32)).wellFormed = false ∧
    (Instr.tfDec256 (rep 0 32) (rep 0 17) (rep 0 32)).wellFormed = false ∧
    (Instr.tfDec256 (rep 0 32) (rep 0 16) (rep 0 33)).wellFormed = false := by decide +kernel

theorem test_wellFormed_tfDec512 :
    (Instr.tfDec512 (rep 0 64) (rep 0 16) (rep 0 64)).wellFormed = true ∧
    (Instr.tfDec512 (rep 0 63) (rep 0 16) (rep 0 64)).wellFormed = false ∧
    (Instr.tfDec512 (rep 0 64) (rep 0 17) (rep 0 64)).wellFormed = false ∧
    (Instr.tfDec512 (rep 0 64) (rep 0 16) (rep 0 65)).wellFormed = false := by decide +kernel

theorem test_wellFormed_tfDec1024 :
    (Instr.tfDec1024 (rep 0 128) (rep 0 16) (rep 0 128)).wellFormed = true ∧
    (Instr.tfDec1024 (rep 0 127) (rep 0 16) (rep 0 128)).wellFormed = false ∧
    (Instr.tfDec1024 (rep 0 128) (rep 0 17) (rep 0 128)).wellFormed = false ∧
    (Instr.tfDec1024 (rep 0 128) (rep 0 16) (rep 0 129)).wellFormed = false := by decide +kernel

/-! ## Decoding: every word of R96 written out by its fields (R91), and the refusals of R100 and V50 -/

theorem test_decode_hashInit :
    decode ⟨wordOf 0b0000000000000000 0b0000000 0b0 0b0000 0b0001, [], [], []⟩ = .accept .hashInitMd2 ∧
    decode ⟨wordOf 0b0000000000000000 0b0000000 0b0 0b0001 0b0001, [], [], []⟩ = .accept .hashInitMd5 ∧
    decode ⟨wordOf 0b0000000000000000 0b0000000 0b0 0b0010 0b0001, [], [], []⟩ = .accept .hashInitSha1 ∧
    decode ⟨wordOf 0b0000000000000000 0b0000000 0b0 0b0011 0b0001, [], [], []⟩ = .accept .hashInitSha224 ∧
    decode ⟨wordOf 0b0000000000000000 0b0000000 0b0 0b0100 0b0001, [], [], []⟩ = .accept .hashInitSha256 ∧
    decode ⟨wordOf 0b0000000000000000 0b0000000 0b0 0b0101 0b0001, [], [], []⟩ = .accept .hashInitSha384 ∧
    decode ⟨wordOf 0b0000000000000000 0b0000000 0b0 0b0110 0b0001, [], [], []⟩ = .accept .hashInitSha512 := by decide

theorem test_decode_hmacInit :
    decode ⟨wordOf 0b0000000000000000 0b0000000 0b0 0b0000 0b0101, [0x0b], [], []⟩ = .accept (.hmacInitMd2 [0x0b]) ∧
    decode ⟨wordOf 0b0000000000000000 0b0000000 0b0 0b0001 0b0101, [0x0b], [], []⟩ = .accept (.hmacInitMd5 [0x0b]) ∧
    decode ⟨wordOf 0b0000000000000000 0b0000000 0b0 0b0010 0b0101, [0x0b], [], []⟩ = .accept (.hmacInitSha1 [0x0b]) ∧
    decode ⟨wordOf 0b0000000000000000 0b0000000 0b0 0b0011 0b0101, [0x0b], [], []⟩ = .accept (.hmacInitSha224 [0x0b]) ∧
    decode ⟨wordOf 0b0000000000000000 0b0000000 0b0 0b0100 0b0101, [0x0b], [], []⟩ = .accept (.hmacInitSha256 [0x0b]) ∧
    decode ⟨wordOf 0b0000000000000000 0b0000000 0b0 0b0101 0b0101, [0x0b], [], []⟩ = .accept (.hmacInitSha384 [0x0b]) ∧
    decode ⟨wordOf 0b0000000000000000 0b0000000 0b0 0b0110 0b0101, [0x0b], [], []⟩ = .accept (.hmacInitSha512 [0x0b]) := by decide

theorem test_decode_update_final :
    decode ⟨wordOf 0b0000000000000000 0b0000000 0b0 0b0000 0b0010, [], [], abc⟩ = .accept (.hashUpdate abc) ∧
    decode ⟨wordOf 0b0000000000000000 0b0000000 0b0 0b0000 0b0011, [], [], []⟩ = .accept .hashFinal ∧
    decode ⟨wordOf 0b0000000000000000 0b0000000 0b0 0b0000 0b0110, [], [], abc⟩ = .accept (.hmacUpdate abc) ∧
    decode ⟨wordOf 0b0000000000000000 0b0000000 0b0 0b0000 0b0111, [], [], []⟩ = .accept .hmacFinal := by decide

theorem test_decode_threefish :
    decode ⟨wordOf 0b0000000100000000 0b0000000 0b0 0b0000 0b1001, rep 1 32, rep 2 16, rep 3 32⟩ =
      .accept (.tfEnc256 (rep 1 32) (rep 2 16) (rep 3 32)) ∧
    decode ⟨wordOf 0b0000001000000000 0b0000000 0b0 0b0000 0b1001, rep 1 64, rep 2 16, rep 3 64⟩ =
      .accept (.tfEnc512 (rep 1 64) (rep 2 16) (rep 3 64)) ∧
    decode ⟨wordOf 0b0000010000000000 0b0000000 0b0 0b0000 0b1001, rep 1 128, rep 2 16, rep 3 128⟩ =
      .accept (.tfEnc1024 (rep 1 128) (rep 2 16) (rep 3 128)) ∧
    decode ⟨wordOf 0b0000000100000000 0b0000000 0b1 0b0000 0b1001, rep 1 32, rep 2 16, rep 3 32⟩ =
      .accept (.tfDec256 (rep 1 32) (rep 2 16) (rep 3 32)) ∧
    decode ⟨wordOf 0b0000001000000000 0b0000000 0b1 0b0000 0b1001, rep 1 64, rep 2 16, rep 3 64⟩ =
      .accept (.tfDec512 (rep 1 64) (rep 2 16) (rep 3 64)) ∧
    decode ⟨wordOf 0b0000010000000000 0b0000000 0b1 0b0000 0b1001, rep 1 128, rep 2 16, rep 3 128⟩ =
      .accept (.tfDec1024 (rep 1 128) (rep 2 16) (rep 3 128)) := by decide

theorem test_decode_illegalCommand_fields :
    ∀ c ∈ ([⟨0x00000000, [], [], []⟩,
       ⟨0x00000004, [], [], []⟩,
       ⟨0x00000008, [], [], []⟩,
       ⟨0x0000000a, [], [], []⟩,
       ⟨0x0000000f, [], [], []⟩,
       ⟨0x00000171, [], [], []⟩,
       ⟨0x00010011, [], [], []⟩,
       ⟨0x00000011, [], [], rep 0 1⟩,
       ⟨0x00000012, [], [], []⟩,
       ⟨0x00000002, rep 0 1, [], []⟩] : List Command), decode c = .reject .illegalCommand := by decide

theorem test_decode_illegalCommand_operands :
    ∀ c ∈ ([⟨0x00000003, [], [], rep 0 1⟩,
       ⟨0x00000015, rep 0 1, [], rep 0 1⟩,
       ⟨0x00000205, [], [], []⟩,
       ⟨0x00008005, [], [], []⟩,
       ⟨0x01000009, rep 0 31, rep 0 16, rep 0 32⟩,
       ⟨0x01000009, rep 0 32, rep 0 15, rep 0 32⟩,
       ⟨0x02000009, rep 0 32, rep 0 16, rep 0 32⟩,
       ⟨0x01000019, rep 0 32, rep 0 16, rep 0 32⟩,
       ⟨0x00800019, [], [], []⟩,
       ⟨0x01000209, rep 0 32, rep 0 16, rep 0 32⟩] : List Command), decode c = .reject .illegalCommand := by decide

theorem test_decode_invalidAlgorithmSelector :
    ∀ c ∈ ([⟨0x00000071, [], [], []⟩,
       ⟨0x000000f1, [], [], []⟩,
       ⟨0x00000071, [], [], rep 0 1⟩,
       ⟨0x000000f5, [], [], []⟩] : List Command), decode c = .reject .invalidAlgorithmSelector := by decide

theorem test_decode_unsupportedBlockSize :
    ∀ c ∈ ([⟨0x00800009, rep 0 16, rep 0 16, rep 0 16⟩,
       ⟨0x00000009, [], [], []⟩,
       ⟨0x08000009, [], [], []⟩,
       ⟨0x01010009, [], [], []⟩,
       ⟨0xffff0109, [], [], []⟩] : List Command), decode c = .reject .unsupportedBlockSize := by decide

/-- A table word reaches the decoder and the step. -/
theorem test_withFetchWord :
    decodeTableWord 32 0x00000041 = some .hashInitSha256 ∧
    step (State.reset.withFetchWord 32 0x00000041) = exec .hashInitSha256 State.reset := ⟨by decide, rfl⟩

/-! ## The hash commands -/

/-- The digest of "abc" (V12). -/
theorem test_hashInitMd2 :
    AnswersDigest .hashInitMd2 abc
      (hexBytes 16 0xda853b0d3f88d99b30283a69e6ded6bb) :=
  answersDigest .md2 _ _ (by decide +kernel)

/-- The digest of "abc" (V2). -/
theorem test_hashInitMd5 :
    AnswersDigest .hashInitMd5 abc
      (hexBytes 16 0x900150983cd24fb0d6963f7d28e17f72) :=
  answersDigest .md5 _ _ (by decide +kernel)

/-- The digest of "abc" (V4). -/
theorem test_hashInitSha1 :
    AnswersDigest .hashInitSha1 abc
      (hexBytes 20 0xa9993e364706816aba3e25717850c26c9cd0d89d) :=
  answersDigest .sha1 _ _ (by decide +kernel)

/-- The digest of "abc" (spec/44_sha2_32.md R216). -/
theorem test_hashInitSha224 :
    AnswersDigest .hashInitSha224 abc
      (hexBytes 28 0x23097d223405d8228642a477bda255b32aadbce4bda0b3f7e36c9da7) :=
  answersDigest .sha224 _ _ (by decide +kernel)

/-- The digest of the empty message (V5). -/
theorem test_hashInitSha256 :
    AnswersDigest .hashInitSha256 [] (hexBytes 32 0xe3b0c44298fc1c149afbf4c8996fb92427ae41e4649b934ca495991b7852b855) :=
  answersDigest .sha256 _ _ (by decide +kernel)

/-- The digest of "abc" (V6). -/
theorem test_hashInitSha384 :
    AnswersDigest .hashInitSha384 abc
      (hexBytes 48 0xcb00753f45a35e8bb5a03d699ac65007272c32ab0eded1631a8b605a43ff5bed8086072ba1e7cc2358baeca134c825a7) :=
  answersDigest .sha384 _ _ (by decide +kernel)

/-- The digest of "abc" (V7). -/
theorem test_hashInitSha512 :
    AnswersDigest .hashInitSha512 abc
      (hexBytes 64 0xddaf35a193617abacc417349ae20413112e6fa4e89a97ea20a9eeee64b55d39a2192992a274fc1a836ba3c23a3feebbd454d4423643ce80e2a9ac94fa54ca49f) :=
  answersDigest .sha512 _ _ (by decide +kernel)

/-- A short update waits in `pending` (V51, state `S1`). -/
theorem test_hashUpdate_pending :
    after (.hashUpdate [0x61, 0x62]) (hashing .md5 []) =
      { State.reset with
        h := { phase := .active, s := .md5 md5Iv, pending := [0x61, 0x62], totalLen := 2 }
        responses := [⟨0, []⟩] } := by decide

/-- An update that fills the block exactly: MD2 of sixteen bytes 0x61 (V12). -/
theorem test_hashUpdate_full_block :
    AnswersDigest .hashInitMd2 (rep 0x61 16) (hexBytes 16 0xb437ae50feb09a37c16b4c605cd642da) :=
  answersDigest .md2 _ _ (by decide +kernel)

/-- Two final invocations: SHA-2-512 of 112 bytes 0x61 (V7). -/
theorem test_hashFinal_two_blocks :
    AnswersDigest .hashInitSha512 (rep 0x61 112)
      (hexBytes 64 0xc01d080efd492776a1c43bd23dd99d0a2e626d481e16782e75d54c2503b5dc32bd05f0f1ba33e568b88fd2d970929b719ecbb152f58f130a407c8830604b70ca) :=
  answersDigest .sha512 _ _ (by decide +kernel)

/-- In IDLE: `InvalidSequence`, and the context stays (V50). -/
theorem test_hashFinal_idle :
    after .hashFinal State.reset = { State.reset with responses := [⟨3, []⟩] } := by decide

/-! ## The HMAC commands -/

/-- Empty key, empty message (V33). -/
theorem test_hmacInitMd2 :
    AnswersMac (.hmacInitMd2 []) []
      (hexBytes 16 0x6f6e031223b36cd2a997787a03d16bf5) :=
  answersMac .md2 _ _ _ (by decide +kernel)

/-- Empty key, empty message (V33). -/
theorem test_hmacInitMd5 :
    AnswersMac (.hmacInitMd5 []) []
      (hexBytes 16 0x74e6f7298a9c2d168935f58c001bad88) :=
  answersMac .md5 _ _ _ (by decide +kernel)

/-- Empty key, empty message (V33). -/
theorem test_hmacInitSha1 :
    AnswersMac (.hmacInitSha1 []) []
      (hexBytes 20 0xfbdb1d1b18aa6c08324b7d64b71fb76370690e1d) :=
  answersMac .sha1 _ _ _ (by decide +kernel)

/-- Empty key, empty message (V33). -/
theorem test_hmacInitSha224 :
    AnswersMac (.hmacInitSha224 []) []
      (hexBytes 28 0x5ce14f72894662213e2748d2a6ba234b74263910cedde2f5a9271524) :=
  answersMac .sha224 _ _ _ (by decide +kernel)

/-- Empty key, empty message (V33). -/
theorem test_hmacInitSha256 :
    AnswersMac (.hmacInitSha256 []) []
      (hexBytes 32 0xb613679a0814d9ec772f95d778c35fc5ff1697c493715653c6c712144292c5ad) :=
  answersMac .sha256 _ _ _ (by decide +kernel)

/-- Empty key, empty message (V33). -/
theorem test_hmacInitSha384 :
    AnswersMac (.hmacInitSha384 []) []
      (hexBytes 48 0x6c1f2ee938fad2e24bd91298474382ca218c75db3d83e114b3d4367776d14d3551289e75e8209cd4b792302840234adc) :=
  answersMac .sha384 _ _ _ (by decide +kernel)

/-- Empty key, empty message (V33). -/
theorem test_hmacInitSha512 :
    AnswersMac (.hmacInitSha512 []) []
      (hexBytes 64 0xb936cee86c9f87aa5d3c6f2e84cb5a4239a5fe50480a6ec66b70ab5b1f4ac6730c6c515421b327ec1d69402e53dfb49ad7381eb067b338fd7b0cb22247225d47) :=
  answersMac .sha512 _ _ _ (by decide +kernel)

/-- HMAC-MD5 with a short key (V8). -/
theorem test_hmacUpdate :
    AnswersMac (.hmacInitMd5 (rep 0x0b 16)) hiThere (hexBytes 16 0x9294727a3638bb1c13f48ef8158bfc9d) :=
  answersMac .md5 _ _ _ (by decide +kernel)

/-- A key longer than the block is hashed first (V31). -/
theorem test_hmacFinal_long_key :
    AnswersMac (.hmacInitMd5 ((List.range 65).map (fun n => BitVec.ofNat 8 n))) abc
      (hexBytes 16 0x5b85979048f0effd21a05556dfa2faac) :=
  answersMac .md5 _ _ _ (by decide +kernel)

/-- `HMAC_FINAL` wipes `M` and leaves a hash stream in progress (spec/46_hmac.md R253). -/
theorem test_hmacFinal_wipes :
    (after .hmacFinal { macing .md2 [] with h := (hashing .md5 abc).h }).m = HmacCtx.wiped ∧
    (after .hmacFinal { macing .md2 [] with h := (hashing .md5 abc).h }).h = (hashing .md5 abc).h := ⟨rfl, rfl⟩

/-! ## The Threefish commands -/

/-- V41. -/
theorem test_tfEnc256 :
    AnswersBlock (.tfEnc256 (hexBytes 32 0x101112131415161718191a1b1c1d1e1f202122232425262728292a2b2c2d2e2f) (hexBytes 16 0x000102030405060708090a0b0c0d0e0f) 
      (hexBytes 32 0xfffefdfcfbfaf9f8f7f6f5f4f3f2f1f0efeeedecebeae9e8e7e6e5e4e3e2e1e0))
      (hexBytes 32 0xe0d091ff0eea8fdfc98192e62ed80ad59d865d08588df476657056b5955e97df) :=
  answersBlock .encrypt .b256 _ _ _ _ (by decide +kernel)

/-- V42. -/
theorem test_tfEnc512 :
    AnswersBlock (.tfEnc512 (rep 0 64) (rep 0 16) (rep 0 64))
      (hexBytes 64 0xb1a2bbc6ef6025bc40eb3822161f36e375d1bb0aee3186fbd19e47c5d479947b7bc2f8586e35f0cff7e7f03084b0b7b1f1ab3961a580a3e97eb41ea14a6d7bbe) :=
  answersBlock .encrypt .b512 _ _ _ _ (by decide +kernel)

/-- V43. -/
theorem test_tfEnc1024 :
    AnswersBlock (.tfEnc1024 (rep 0 128) (rep 0 16) (rep 0 128))
      (hexBytes 128 0xf05c3d0a3d05b304f785ddc7d1e036015c8aa76e2f217b06c6e1544c0bc1a90df0accb9473c24e0fd54fea68057f43329cb454761d6df5cf7b2e9b3614fbd5a20b2e4760b40603540d82eabc5482c171c832afbe68406bc39500367a592943fa9a5b4a43286ca3c4cf46104b443143d560a4b230488311df4feef7e1dfe8391e) :=
  answersBlock .encrypt .b1024 _ _ _ _ (by decide +kernel)

/-- V41 the other way (V46). -/
theorem test_tfDec256 :
    AnswersBlock (.tfDec256 (hexBytes 32 0x101112131415161718191a1b1c1d1e1f202122232425262728292a2b2c2d2e2f) (hexBytes 16 0x000102030405060708090a0b0c0d0e0f) 
      (hexBytes 32 0xe0d091ff0eea8fdfc98192e62ed80ad59d865d08588df476657056b5955e97df))
      (hexBytes 32 0xfffefdfcfbfaf9f8f7f6f5f4f3f2f1f0efeeedecebeae9e8e7e6e5e4e3e2e1e0) :=
  answersBlock .decrypt .b256 _ _ _ _ (by decide +kernel)

/-- V42 the other way (V46). -/
theorem test_tfDec512 :
    AnswersBlock (.tfDec512 (rep 0 64) (rep 0 16) 
      (hexBytes 64 0xb1a2bbc6ef6025bc40eb3822161f36e375d1bb0aee3186fbd19e47c5d479947b7bc2f8586e35f0cff7e7f03084b0b7b1f1ab3961a580a3e97eb41ea14a6d7bbe))
      (rep 0 64) :=
  answersBlock .decrypt .b512 _ _ _ _ (by decide +kernel)

/-- V43 the other way (V46). -/
theorem test_tfDec1024 :
    AnswersBlock (.tfDec1024 (rep 0 128) (rep 0 16) 
      (hexBytes 128 0xf05c3d0a3d05b304f785ddc7d1e036015c8aa76e2f217b06c6e1544c0bc1a90df0accb9473c24e0fd54fea68057f43329cb454761d6df5cf7b2e9b3614fbd5a20b2e4760b40603540d82eabc5482c171c832afbe68406bc39500367a592943fa9a5b4a43286ca3c4cf46104b443143d560a4b230488311df4feef7e1dfe8391e))
      (rep 0 128) :=
  answersBlock .decrypt .b1024 _ _ _ _ (by decide +kernel)

/-- Some subkeys of V41 (V44): the subkey number, not the round number, goes into the last lane. -/
theorem test_subkeys :
    let k := tfKeySchedule (leWords 64 4 (hexBytes 32 0x101112131415161718191a1b1c1d1e1f202122232425262728292a2b2c2d2e2f))
    let t := tfTweakSchedule (leWords 64 2 (hexBytes 16 0x000102030405060708090a0b0c0d0e0f))
    tfSubkey 4 k t 3 = [0x2f2e2d2c2b2a2928, 0x22d720deacfe1b22, 0x262422201e1c1a18, 0x1f1e1d1c1b1a191b] ∧
    tfSubkey 4 k t 18 = [0x2f2e2d2c2b2a2928, 0x22d720deacfe1b22, 0x262422201e1c1a18, 0x1f1e1d1c1b1a192a] := by
  decide +kernel

/-- MIX and its inverse (V45). -/
theorem test_mix :
    tfMix 0x0123456789abcdef 0xfedcba9876543210 57 = (0xffffffffffffffff, 0xde02468acf13579b) ∧
    tfUnmix 0xffffffffffffffff 0xde02468acf13579b 57 = (0x0123456789abcdef, 0xfedcba9876543210) := by decide

/-- One round in isolation (V47). -/
theorem test_round :
    tfRound .b512 0 [0, 1, 2, 3, 4, 5, 6, 7] =
      [0x5, 0x0000400000000001, 0x9, 0x000000e00000000d, 0xd, 0x0000000000280009, 0x1, 0x0000003000000005] := by
  decide +kernel

/-! ## Errors and reset -/

/-- An error in the middle of a stream leaves the stream and answers its code (V51). -/
theorem test_error_leaves_stream :
    step { hashing .md5 [0x61, 0x62] with inputs := [.command ⟨0x00000071, [], [], []⟩] } =
      .next { hashing .md5 [0x61, 0x62] with responses := [⟨2, []⟩] } :=
  step_reject _ _ [] .invalidAlgorithmSelector rfl (by decide)

/-- A reset in the middle of a stream clears the contexts and answers nothing (R330). -/
theorem test_reset_input :
    step { hashing .md5 [0x61, 0x62] with inputs := [.reset] } = .next State.reset := step_reset _ [] rfl

/-! ## Witnesses: the hypotheses of each statement are met together, each clause at a boundary -/

theorem witness_DecodeOfEncodeIsTheInstruction :
    (Instr.tfEnc256 (rep 0 32) (rep 0 16) (rep 0 32)).wellFormed = true ∧
    (Instr.tfDec1024 (rep 0 128) (rep 0 16) (rep 0 128)).wellFormed = true ∧
    (Instr.hmacUpdate abc).wellFormed = true := by decide

theorem witness_AcceptedCommandsAreTheTable :
    decode ⟨0x00000011, [], [], []⟩ = .accept .hashInitMd5 ∧ (0x00000001 : W32) ∈ legalWords ∧
    (0x04000109 : W32) ∈ legalWords := by decide

theorem witness_UnsupportedSizeIsRaisedExactlyThere :
    (waiting (.command ⟨0x00FF0009, [], [], []⟩)).inputs = .command ⟨0x00FF0009, [], [], []⟩ :: [] ∧
    decode ⟨0x00FF0009, [], [], []⟩ = .reject .unsupportedBlockSize ∧
    decode ⟨0x04010109, [], [], []⟩ = .reject .unsupportedBlockSize := by decide

theorem witness_UnrecognizedTagIsRaisedExactlyThere :
    (waiting (.command ⟨0x00000071, [], [], []⟩)).inputs = .command ⟨0x00000071, [], [], []⟩ :: [] ∧
    decode ⟨0x00000071, [], [], []⟩ = .reject .invalidAlgorithmSelector ∧
    decode ⟨0x000000F5, [], [], []⟩ = .reject .invalidAlgorithmSelector := by decide

theorem witness_IllegalCommandIsEveryOtherWord :
    (waiting (.command ⟨0x00000000, [], [], []⟩)).inputs = .command ⟨0x00000000, [], [], []⟩ :: [] ∧
    decode ⟨0x00000000, [], [], []⟩ = .reject .illegalCommand := by decide

/-- The lowest and highest reserved bit; `OP` 0 and 15; `DIR` and `BSB` of an `INIT`; each field and operand of an `UPDATE`;
`DATA` of a `FINAL`; operands of an `INIT` with the last known tag; `ALG` of Threefish; each operand length. -/
theorem witness_IllegalWordsByCause :
    fieldRsv 0x00000201 ≠ 0 ∧ fieldRsv 0x00008001 ≠ 0 ∧
    fieldOp 0x00000000 ∉ [0x1, 0x2, 0x3, 0x5, 0x6, 0x7, 0x9] ∧ fieldOp 0x0000000F ∉ [0x1, 0x2, 0x3, 0x5, 0x6, 0x7, 0x9] ∧
    (fieldOp 0x00000101 ∈ [0x1, 0x5] ∧ fieldDir 0x00000101 ≠ 0) ∧
    (fieldOp 0x00010005 ∈ [0x1, 0x5] ∧ fieldBsb 0x00010005 ≠ 0) ∧
    (fieldOp 0x00000012 ∈ [0x2, 0x3, 0x6, 0x7] ∧ fieldAlg 0x00000012 ≠ 0) ∧
    (fieldOp 0x00000007 ∈ [0x2, 0x3, 0x6, 0x7] ∧ ([0] : Bytes) ≠ []) ∧
    (fieldOp 0x00000003 ∈ [0x3, 0x7] ∧ ([0] : Bytes) ≠ []) ∧
    (fieldOp 0x00000065 ∈ [0x1, 0x5] ∧ (fieldAlg 0x00000065).toNat < 7 ∧ ([0] : Bytes) ≠ []) ∧
    (fieldOp 0x00000061 = 0x1 ∧ (fieldAlg 0x00000061).toNat < 7 ∧ ([0] : Bytes) ≠ []) ∧
    (fieldOp 0x01000019 = 0x9 ∧ fieldAlg 0x01000019 ≠ 0) ∧
    (fieldOp 0x01000009 = 0x9 ∧ (fieldBsb 0x01000009).toNat ∈ [256, 512, 1024] ∧
      (rep 0 31).length ≠ (fieldBsb 0x01000009).toNat / 8) ∧
    (fieldOp 0x04000109 = 0x9 ∧ (fieldBsb 0x04000109).toNat ∈ [256, 512, 1024] ∧
      (rep 0 129).length ≠ (fieldBsb 0x04000109).toNat / 8) := by decide

theorem witness_StepRunsTheDecodedInstruction :
    (waiting (.command (encode (.hashUpdate abc)))).inputs = .command (encode (.hashUpdate abc)) :: [] ∧
    decode (encode (.hashUpdate abc)) = .accept (.hashUpdate abc) ∧
    (Instr.hashUpdate abc).wellFormed = true := by decide

/-- One error of the decoder, one of the phase check. -/
theorem witness_ErrorsLeaveNoTrace :
    (step (waiting (.command ⟨0x00000000, [], [], []⟩)) = .next { State.reset with responses := [⟨4, []⟩] }) ∧
    (step (waiting (.command ⟨0x00000007, [], [], []⟩)) = .next { State.reset with responses := [⟨3, []⟩] }) ∧
    (4 : BitVec 8) ≠ 0 ∧ (3 : BitVec 8) ≠ 0 :=
  ⟨step_reject _ _ [] .illegalCommand rfl (by decide),
    (step_accept _ _ [] .hmacFinal rfl (by decide)).trans (exec_hmacFinal_idle _ rfl), by decide, by decide⟩

theorem witness_ErrorsAreNotSticky :
    (step (waiting (.command ⟨0x00000000, [], [], []⟩)) =
      .next { State.reset with responses := [errorResponse .illegalCommand] }) ∧
    (step (waiting (.command ⟨0x00000003, [], [], []⟩)) =
      .next { State.reset with responses := [errorResponse .invalidSequence] }) :=
  ⟨step_reject _ _ [] .illegalCommand rfl (by decide),
    (step_accept _ _ [] .hashFinal rfl (by decide)).trans (exec_hashFinal_idle _ rfl)⟩

theorem witness_EveryStepAnswersNext : State.reset.inputs = [] := by decide

theorem hashing_Inv (a : Alg) (p : Bytes) (h : p.length < a.blockBytes) : (hashing a p).Inv :=
  ⟨⟨ivOf_WF a, (by show p.length < (ctxInit a).alg.blockBytes; rwa [ctxInit_alg]),
    fun e => Phase.noConfusion e⟩, HmacCtx.wiped_WF⟩

theorem macing_Inv (a : Alg) (key : Bytes) : (macing a key).Inv := ⟨HashCtx.wiped_WF, hmacStart_WF a key⟩

/-- A digest, a MAC, a block, an empty response and an error. -/
theorem witness_OneResponseOfTheRightLength :
    ((hashing .md5 (rep 0 63)).Inv ∧ ∃ t, exec .hashFinal (hashing .md5 (rep 0 63)) = .next t) ∧
    ((macing .sha512 []).Inv ∧ ∃ t, exec .hmacFinal (macing .sha512 []) = .next t) ∧
    (State.reset.Inv ∧ ∃ t, exec (tfOf .encrypt .b256 [] [] []) State.reset = .next t) ∧
    (State.reset.Inv ∧ ∃ t, exec .hashInitMd5 State.reset = .next t) ∧
    (State.reset.Inv ∧ ∃ t, exec .hmacFinal State.reset = .next t) :=
  ⟨⟨hashing_Inv _ _ (by decide), _, exec_hashFinal_active _ rfl⟩,
    ⟨macing_Inv _ _, _, exec_hmacFinal_active _ rfl⟩,
    ⟨⟨HashCtx.wiped_WF, HmacCtx.wiped_WF⟩, _, exec_tfOf _ _ _ _ _ _⟩,
    ⟨⟨HashCtx.wiped_WF, HmacCtx.wiped_WF⟩, _, exec_hashInitOf .md5 _⟩,
    ⟨HashCtx.wiped_WF, HmacCtx.wiped_WF⟩, _, exec_hmacFinal_idle _ rfl⟩

theorem witness_ErrorsAfterDecoding :
    (exec .hashFinal State.reset = .next { State.reset with responses := [] ++ [⟨3, []⟩] }) ∧
    (exec (.hmacUpdate abc) State.reset = .next { State.reset with responses := [] ++ [⟨3, []⟩] }) ∧
    (exec .hmacFinal State.reset = .next { State.reset with responses := [] ++ [⟨3, []⟩] }) ∧
    (exec .hashInitMd5 State.reset =
      .next { hashing .md5 [] with responses := [] ++ [⟨0, []⟩] }) :=
  ⟨exec_hashFinal_idle _ rfl, exec_hmacUpdate_idle _ _ rfl, exec_hmacFinal_idle _ rfl, exec_hashInitOf .md5 _⟩

theorem witness_IdleContextsRaiseInvalidSequence :
    State.reset.h.phase = .idle ∧ State.reset.m.phase = .idle := by decide

theorem witness_ResetInputRestoresTheResetState : (waiting .reset).inputs = .reset :: [] := by decide

/-- Nothing pending, and one byte short of a block. -/
theorem witness_HashUpdateCompressesTheFullBlocks :
    ((hashing .sha512 []).h.phase = .active ∧
      (hashing .sha512 []).h.pending.length < (hashing .sha512 []).h.alg.blockBytes) ∧
    ((hashing .sha512 (rep 0 127)).h.phase = .active ∧
      (hashing .sha512 (rep 0 127)).h.pending.length < (hashing .sha512 (rep 0 127)).h.alg.blockBytes) := by decide +kernel

/-- The last length with one final block and the first with two. -/
theorem witness_HashFinalAnswersTheDigestAndWipes :
    ((hashing .md5 (rep 0 55)).h.phase = .active ∧
      (hashing .md5 (rep 0 55)).h.pending.length < (hashing .md5 (rep 0 55)).h.alg.blockBytes) ∧
    ((hashing .md5 (rep 0 56)).h.phase = .active ∧
      (hashing .md5 (rep 0 56)).h.pending.length < (hashing .md5 (rep 0 56)).h.alg.blockBytes) := by decide

theorem witness_ChunkingInvariance :
    (hashing .md2 (rep 0 15)).h.pending.length < (hashing .md2 (rep 0 15)).h.alg.blockBytes := by decide

theorem witness_LengthFieldWrapsAtTwoToThe61 : (ctxInit .md2).alg = .md2 ∧ (ctxInit .md5).phase = .active := by decide

theorem witness_LengthFieldHoldsTheBitCount :
    Alg.sha224 ∈ [Alg.sha1, .sha224, .sha256] ∧ Alg.sha384 ∈ [Alg.sha384, .sha512] := by decide

/-- 55 and 56 pending bytes with an 8-byte field, 111 and 112 with a 16-byte field. -/
theorem witness_PaddedTailIsOneOrTwoBlocks :
    Alg.md5 ≠ .md2 ∧ Alg.sha512 ≠ .md2 ∧
    (rep 0 55).length ≤ Alg.md5.blockBytes - Alg.md5.lengthFieldBytes - 1 ∧
    Alg.md5.blockBytes - Alg.md5.lengthFieldBytes - 1 < (rep 0 56).length ∧
    (rep 0 56).length < Alg.md5.blockBytes ∧
    (rep 0 111).length ≤ Alg.sha512.blockBytes - Alg.sha512.lengthFieldBytes - 1 ∧
    Alg.sha512.blockBytes - Alg.sha512.lengthFieldBytes - 1 < (rep 0 112).length ∧
    (rep 0 112).length < Alg.sha512.blockBytes := by decide

theorem witness_InvocationsPerMessage :
    Alg.sha384 ≠ .md2 ∧ (absorb (ctxInit .md2) []).s = .md2 md2Iv := by decide

theorem witness_Md2TableIsAPermutation : md2S 0x00 = md2S 0x00 := by decide

theorem witness_Md2ChecksumRecurrence :
    md2Iv.x.length = 16 ∧ md2Iv.c.length = 16 ∧ (rep 0x10 16).length = 16 ∧ 0 < 15 ∧ 14 < 15 := by decide

theorem witness_Md2DigestRegistersByPasses :
    md2Iv.x.length = 16 ∧ (rep 0x10 16).length = 16 ∧ 17 < 18 ∧ 47 < 48 ∧ 16 < 17 ∧ 15 < 16 := by decide

theorem witness_Md5CompressBySteps : 0 < 64 ∧ 63 < 64 := by decide

theorem witness_Sha1ScheduleRecurrence : 0 < 16 ∧ 15 < 16 ∧ (16 ≤ 16 ∧ 16 < 80) ∧ (16 ≤ 79 ∧ 79 < 80) := by decide

theorem witness_Sha1CompressBySteps : 0 < 80 ∧ 79 < 80 := by decide

theorem witness_Sha2ScheduleRecurrence : 15 < 16 ∧ (16 ≤ 63 ∧ 63 < 64) ∧ (16 ≤ 79 ∧ 79 < 80) := by decide

theorem witness_Sha2CompressByRounds : 63 < 64 ∧ 79 < 80 := by decide

theorem witness_Sha512ConstantsExtendSha256Constants : 0 < 64 ∧ 63 < 64 := by decide

theorem witness_ByteOrderPrimitives : (rep 1 4).length = 4 ∧ (rep 1 8).length = 8 := by decide

theorem witness_WordOperatorsByTheirFormulas : (0 < 1 ∧ 1 < 32) ∧ (0 < 31 ∧ 31 < 32) ∧ 0 < 32 := by decide

/-- A key one byte longer than the block, and one of exactly the block. -/
theorem witness_HmacInitDerivesTheKey :
    Alg.md5.blockBytes < (rep 0 65).length ∧ (rep 0 64).length ≤ Alg.md5.blockBytes ∧
    ([] : Bytes).length ≤ Alg.md5.blockBytes := by decide

/-- Nothing pending in `M.H`, and one byte short of a block. -/
theorem witness_HmacUpdateForwardsToTheEngine :
    (macing .md5 []).m.phase = .active ∧
    (macing .md5 []).m.h.pending.length < (macing .md5 []).m.h.alg.blockBytes ∧
    (after (.hmacUpdate (rep 0 15)) (macing .md2 [])).m.phase = .active ∧
    (after (.hmacUpdate (rep 0 15)) (macing .md2 [])).m.h.pending.length <
      (after (.hmacUpdate (rep 0 15)) (macing .md2 [])).m.h.alg.blockBytes :=
  ⟨rfl, (hmacStart_WF .md5 []).inner.pending_lt, rfl, absorb_pending_lt _ _ (hmacStart_WF .md2 []).inner.pending_lt⟩

theorem witness_HmacFinalAnswersTheMacAndWipes :
    (macing .sha256 abc).m.WF ∧ (macing .sha256 abc).m.phase = .active := ⟨hmacStart_WF _ _, rfl⟩

theorem witness_HmacKeyLengthBranches :
    Alg.md2.blockBytes < (rep 0 17).length ∧ (rep 0 15).length < Alg.md2.blockBytes ∧
    (rep 0 16).length = Alg.md2.blockBytes := by decide

theorem witness_DerivedKeyIsNeverMutated :
    (∃ t, exec (.hmacUpdate abc) (macing .md5 []) = .next t) ∧ (∀ a key, Instr.hmacUpdate abc ≠ hmacInitOf a key) ∧
    Instr.hmacUpdate abc ≠ .hmacFinal ∧
    (∃ t, exec .hmacFinal (macing .md5 []) = .next t) ∧ (macing .md5 []).m.phase = .active :=
  ⟨⟨_, exec_hmacUpdate_active _ _ rfl⟩, fun a k h => (hmacInitOf_ne a k).2.2.2.1 _ h.symm, by decide,
    ⟨_, exec_hmacFinal_active _ rfl⟩, rfl⟩

theorem witness_ThreefishTransformsTheBlock :
    (List.replicate 4 (0 : W64)).length = TfSize.b256.words ∧ (List.replicate 16 (0 : W64)).length = TfSize.b1024.words ∧
    tfOperandsFit .b256 (rep 0 32) (rep 0 16) (rep 0 32) = true ∧
    tfOperandsFit .b1024 (rep 0 128) (rep 0 16) (rep 0 128) = true := by decide

theorem witness_ThreefishRoundTrip :
    tfOperandsFit .b256 (rep 0 32) (rep 0 16) (rep 0 32) = true ∧
    tfOperandsFit .b512 (rep 0 64) (rep 0 16) (rep 0 64) = true ∧
    tfOperandsFit .b1024 (rep 0 128) (rep 0 16) (rep 0 128) = true ∧
    (List.replicate 8 (0 : W64)).length = TfSize.b512.words := by decide

theorem witness_MixAndUnmix : 0 < 64 ∧ 63 < 64 := by decide

theorem witness_RoundMixesAndPermutes :
    (List.replicate 4 (0 : W64)).length = TfSize.b256.words ∧ 0 < TfSize.b256.words ∧ 3 < TfSize.b256.words := by decide

theorem witness_SubkeyWordsByLane :
    0 ≤ TfSize.b256.rounds / 4 ∧ 18 ≤ TfSize.b256.rounds / 4 ∧ 20 ≤ TfSize.b1024.rounds / 4 ∧
    0 < TfSize.b256.words - 3 ∧ 12 < TfSize.b1024.words - 3 := by decide

theorem witness_KeyScheduleHasAParityWord : 3 < (List.replicate 4 (0 : W64)).length := by decide

theorem witness_ThreefishTablesHaveTheirShapes :
    [14, 16] ∈ tfRotTable .b256 ∧ 14 ∈ [14, 16] ∧ 15 < TfSize.b1024.words := by decide

/-- One command of each class on states that agree on its context and differ on the other. -/
theorem witness_ContextsAreDisjoint :
    (isHashCommand (.hashUpdate abc) ∧ (hashing .md5 []).h = { hashing .md5 [] with m := (macing .md2 []).m }.h ∧
      (∃ t, exec (.hashUpdate abc) (hashing .md5 []) = .next t) ∧
      ∃ t, exec (.hashUpdate abc) { hashing .md5 [] with m := (macing .md2 []).m } = .next t) ∧
    (isHmacCommand .hmacFinal ∧ (macing .md5 []).m = { macing .md5 [] with h := (hashing .md2 []).h }.m ∧
      (∃ t, exec .hmacFinal (macing .md5 []) = .next t) ∧
      ∃ t, exec .hmacFinal { macing .md5 [] with h := (hashing .md2 []).h } = .next t) ∧
    (isThreefishCommand (.tfEnc256 [] [] []) ∧ (∃ t, exec (.tfEnc256 [] [] []) State.reset = .next t) ∧
      ∃ t, exec (.tfEnc256 [] [] []) (hashing .md5 []) = .next t) :=
  ⟨⟨.inr (.inl ⟨_, rfl⟩), rfl, ⟨_, exec_hashUpdate_active _ _ rfl⟩, _,
      exec_hashUpdate_active _ { hashing .md5 [] with m := (macing .md2 []).m } rfl⟩,
    ⟨.inr (.inr rfl), rfl, ⟨_, exec_hmacFinal_active _ rfl⟩, _,
      exec_hmacFinal_active { macing .md5 [] with h := (hashing .md2 []).h } rfl⟩,
    ⟨.encrypt, .b256, [], [], [], rfl⟩, ⟨_, exec_tfOf .encrypt .b256 [] [] [] State.reset⟩, _,
      exec_tfOf .encrypt .b256 [] [] [] (hashing .md5 [])⟩

theorem witness_PhaseTransitions : ∃ t, exec .hashFinal (hashing .md5 []) = .next t := ⟨_, exec_hashFinal_active _ rfl⟩

theorem witness_AlgIsWrittenByInitAndWipedByFinal :
    (∃ t, exec (hashInitOf .md5) State.reset = .next t) ∧
    (∃ t, exec (hmacInitOf .md5 []) State.reset = .next t) ∧
    ((∃ t, exec .hashFinal (hashing .md5 []) = .next t) ∧ (hashing .md5 []).h.phase = .active) ∧
    ((∃ t, exec .hmacFinal (macing .md5 []) = .next t) ∧ (macing .md5 []).m.phase = .active) ∧
    ((∃ t, exec (.hashUpdate abc) State.reset = .next t) ∧ (∀ a, Instr.hashUpdate abc ≠ hashInitOf a) ∧
      (∀ a key, Instr.hashUpdate abc ≠ hmacInitOf a key)) :=
  ⟨⟨_, exec_hashInitOf _ _⟩, ⟨_, exec_hmacInitOf _ _ _⟩, ⟨⟨_, exec_hashFinal_active _ rfl⟩, rfl⟩,
    ⟨⟨_, exec_hmacFinal_active _ rfl⟩, rfl⟩, ⟨_, exec_hashUpdate_idle _ _ rfl⟩,
    fun a h => (hashInitOf_ne a).2.2.1 _ h.symm, fun a k h => (hmacInitOf_ne a k).2.2.1 _ h.symm⟩

theorem witness_InitAndThreefishAreIdempotent :
    ∃ s1 s2, exec (hashInitOf .md5) State.reset = .next s1 ∧ exec (hashInitOf .md5) s1 = .next s2 :=
  ⟨_, _, exec_hashInitOf _ _, exec_hashInitOf _ _⟩

theorem witness_EmptyUpdateIsANoOp :
    ((hashing .md5 (rep 0 63)).h.phase = .active ∧
      (hashing .md5 (rep 0 63)).h.pending.length < (hashing .md5 (rep 0 63)).h.alg.blockBytes) ∧
    ((macing .md2 []).m.phase = .active ∧
      (macing .md2 []).m.h.pending.length < (macing .md2 []).m.h.alg.blockBytes) :=
  ⟨by decide, rfl, (hmacStart_WF .md2 []).inner.pending_lt⟩

/-- From reset, and from the middle of a stream with a command waiting. -/
theorem witness_StepKeepsTheInvariant :
    (State.reset.Inv ∧ ∃ t, step State.reset = .next t) ∧
    (State.Inv { hashing .md5 (rep 0 63) with inputs := [.command ⟨0x00000003, [], [], []⟩] } ∧
      ∃ t, step { hashing .md5 (rep 0 63) with inputs := [.command ⟨0x00000003, [], [], []⟩] } = .next t) :=
  ⟨⟨⟨HashCtx.wiped_WF, HmacCtx.wiped_WF⟩, _, step_no_input _ rfl⟩,
    ⟨(hashing_Inv .md5 (rep 0 63) (by decide)).hash, HmacCtx.wiped_WF⟩, _,
    (step_accept _ _ [] .hashFinal rfl (by decide)).trans (exec_hashFinal_active _ rfl)⟩

theorem witness_InstancesCommute :
    (0 : Nat) ≠ 1 ∧ [State.reset, waiting .reset][0]? = some State.reset ∧
    [State.reset, waiting .reset][1]? = some (waiting .reset) ∧
    step State.reset = .next State.reset ∧ step (waiting .reset) = .next State.reset :=
  ⟨by decide, rfl, rfl, step_no_input _ rfl, step_reset _ [] rfl⟩

/-- R102: an algorithm name, a comment, a quoted string, a hexadecimal string, an empty line; and a line that is none. -/
theorem test_assembly_text_hash :
    assembleText "HASH_INIT.SHA224 ; a new stream\nHASH_UPDATE \"a;b\"\n\nHASH_UPDATE hex:0b0C\nHASH_FINAL".toList =
      some [⟨0x31, [], [], []⟩, ⟨0x2, [], [], [0x61, 0x3b, 0x62]⟩, ⟨0x2, [], [], [0x0b, 0x0c]⟩, ⟨0x3, [], [], []⟩] ∧
    assembleText "HASH_INIT.SHA3".toList = none := by decide

/-- R102: a repetition, and the named operands of a Threefish line. -/
theorem test_assembly_text_keyed :
    assembleText "HMAC_INIT.MD5 0x0b*16\nHMAC_UPDATE \"Hi There\"\nHMAC_FINAL".toList =
      some [⟨0x15, rep 0x0b 16, [], []⟩, ⟨0x6, [], [], [0x48, 0x69, 0x20, 0x54, 0x68, 0x65, 0x72, 0x65]⟩, ⟨0x7, [], [], []⟩] ∧
    assembleText "TF_DEC.1024 key=0x00*128 tweak=0x01*16 block=0x02*128".toList =
      some [⟨0x04000109, rep 0 128, rep 1 16, rep 2 128⟩] := by decide

theorem witness_AssemblyLinesAreTheirCommands :
    7 ≤ (7 : BitVec 4).toNat ∧ 7 ≤ (15 : BitVec 4).toNat ∧
    ((0 : BitVec 16) ≠ 256 ∧ (0 : BitVec 16) ≠ 512 ∧ (0 : BitVec 16) ≠ 1024) ∧
    ((257 : BitVec 16) ≠ 256 ∧ (257 : BitVec 16) ≠ 512 ∧ (257 : BitVec 16) ≠ 1024) := by decide

end Sys2Proof.Tests
end

section
/-! PROOFS. The statements of spec/00_scope.md: the byte-order primitives (R14) and the word operators (R13). -/

namespace Sys2Proof

/-! ## The number a word decodes to -/

/-- A string of exactly the word's length loses nothing to the word's width. -/
theorem leWord_toNat {n : Nat} (b : Bytes) (hb : b.length = n) : (leWord (8 * n) b).toNat = natOfLe b := by
  have hlt : natOfLe b < 2 ^ (8 * n) := by
    rw [pow_mul, ← hb]
    exact natOfLe_lt b
  rw [leWord, BitVec.toNat_ofNat, Nat.mod_eq_of_lt hlt]

theorem beWord_toNat {n : Nat} (b : Bytes) (hb : b.length = n) : (beWord (8 * n) b).toNat = natOfLe b.reverse :=
  leWord_toNat b.reverse (by rw [List.length_reverse, hb])

theorem natOfLe_four (b0 b1 b2 b3 : Byte) :
    natOfLe [b0, b1, b2, b3] = b0.toNat + 2 ^ 8 * b1.toNat + 2 ^ 16 * b2.toNat + 2 ^ 24 * b3.toNat := by
  simp only [natOfLe]
  ring

theorem natOfLe_eight (b0 b1 b2 b3 b4 b5 b6 b7 : Byte) :
    natOfLe [b0, b1, b2, b3, b4, b5, b6, b7] =
      b0.toNat + 2 ^ 8 * b1.toNat + 2 ^ 16 * b2.toNat + 2 ^ 24 * b3.toNat +
        2 ^ 32 * b4.toNat + 2 ^ 40 * b5.toNat + 2 ^ 48 * b6.toNat + 2 ^ 56 * b7.toNat := by
  simp only [natOfLe]
  ring

/-! ## The encoding and the decoding of a word are inverses -/

theorem bytes_length_and_words_of_bytes {n : Nat} (x : BitVec (8 * n)) :
    (leBytes x).length = n ∧ (beBytes x).length = n ∧
      leWord (8 * n) (leBytes x) = x ∧ beWord (8 * n) (beBytes x) = x := by
  have hdiv : 8 * n / 8 = n := Nat.mul_div_cancel_left n (by decide)
  exact ⟨by rw [leBytes_length, hdiv], by rw [beBytes_length, hdiv], leWord_leBytes x, beWord_beBytes x⟩

theorem bytes_of_words {n : Nat} (b : Bytes) (hb : b.length = n) :
    leBytes (leWord (8 * n) b) = b ∧ beBytes (beWord (8 * n) b) = b :=
  ⟨leBytes_leWord b hb, beBytes_beWord b hb⟩

/-- Settles O36: a word of `n` bytes decodes to the number of its bytes, and the inverses hold at every `n`; the
statement takes `n = 4` and `n = 8`. -/
theorem byteOrderPrimitives : Obligations.ByteOrderPrimitives := by
  refine ⟨fun b0 b1 b2 b3 => ⟨?_, ?_⟩, fun b0 b1 b2 b3 b4 b5 b6 b7 => ⟨?_, ?_⟩, bytes_length_and_words_of_bytes (n := 4),
    bytes_length_and_words_of_bytes (n := 8), bytes_of_words (n := 4), bytes_of_words (n := 8)⟩
  · exact (leWord_toNat (n := 4) _ rfl).trans (natOfLe_four b0 b1 b2 b3)
  · have h : (beWord 32 [b0, b1, b2, b3]).toNat = natOfLe [b3, b2, b1, b0] := beWord_toNat (n := 4) _ rfl
    rw [h, natOfLe_four]
    ring
  · exact (leWord_toNat (n := 8) _ rfl).trans (natOfLe_eight b0 b1 b2 b3 b4 b5 b6 b7)
  · have h : (beWord 64 [b0, b1, b2, b3, b4, b5, b6, b7]).toNat = natOfLe [b7, b6, b5, b4, b3, b2, b1, b0] :=
      beWord_toNat (n := 8) _ rfl
    rw [h, natOfLe_eight]
    ring

/-! ## The word operators as integers -/

/-- Subtraction at width `w` written with the borrow `2 ^ w` on the minuend (R13). -/
theorem sub_toNat_borrow {w : Nat} (a b : BitVec w) : (a - b).toNat = (a.toNat + 2 ^ w - b.toNat) % 2 ^ w := by
  rw [BitVec.toNat_sub]
  congr 1
  have hb := b.isLt
  omega

theorem shr_toNat {w : Nat} (a : BitVec w) (r : Nat) : (shr a r).toNat = a.toNat / 2 ^ r := by
  rw [shr, BitVec.toNat_ushiftRight, Nat.shiftRight_eq_div_pow]

/-- Settles O37: one integer formula per operator; `rotr` is by definition the rotation by the complementary amount. -/
theorem wordOperatorsByTheirFormulas : Obligations.WordOperatorsByTheirFormulas := by
  intro w a b
  exact ⟨BitVec.toNat_add a b, sub_toNat_borrow a b,
    fun i => ⟨BitVec.getLsbD_xor, BitVec.getLsbD_and, BitVec.getLsbD_or⟩,
    BitVec.toNat_not, fun r _ hr => rotl_toNat a r hr, rotl_zero a, fun _ => rfl, shr_toNat a,
    fun r hr => ⟨rotr_rotl a r hr, rotl_rotr a r hr⟩⟩

end Sys2Proof
end

section
/-! PROOFS. The statement of spec/10_state.md: the derived key `M.K` is written by `HMAC_INIT` and then only by the wipe of
`HMAC_FINAL` (R33). -/

namespace Sys2Proof.Machine

@[simp] theorem HmacCtx.wiped_k : HmacCtx.wiped.k = rep 0 16 := rfl

/-- Everything a command can do to `M`: leave it, start it, feed the wrapped engine, or wipe it. The first case covers the
hash and Threefish commands, and the HMAC commands that answer an error. -/
theorem exec_hmacCtx_cases {i : Instr} {s s' : State} (h : exec i s = .next s') :
    s'.m = s.m ∨ (∃ a key, i = hmacInitOf a key ∧ s'.m = hmacStart a key) ∨
      (∃ data, i = .hmacUpdate data ∧ s.m.phase = .active ∧ s'.m = { s.m with h := absorb s.m.h data }) ∨
      (i = .hmacFinal ∧ s.m.phase = .active ∧ s'.m = HmacCtx.wiped) := by
  obtain ⟨c, m, r, hexec, hshape⟩ := exec_cases i s
  obtain rfl := next_inj.mp (h.symm.trans hexec)
  rcases hshape with ⟨_, _, _, hm, _⟩ | ⟨_, _, _, _, hm, _⟩ | ⟨_, _, _, hm, _⟩ | ⟨_, _, _, hm, _⟩ |
    ⟨a, key, hi, _, hm, _⟩ | ⟨data, hi, hphase, _, hm, _⟩ | ⟨hi, hphase, _, hm, _⟩ | ⟨_, _, _, hm, _⟩ |
    ⟨_, _, _, _, _, _, _, hm, _⟩
  · exact .inl hm
  · exact .inl hm
  · exact .inl hm
  · exact .inl hm
  · exact .inr (.inl ⟨a, key, hi, hm⟩)
  · exact .inr (.inr (.inl ⟨data, hi, hphase, hm⟩))
  · exact .inr (.inr (.inr ⟨hi, hphase, hm⟩))
  · exact .inl hm
  · exact .inl hm

/-- Settles O43: of the four things a command can do to `M`, only a start and a wipe write `M.K`, and the wipe is sixteen
zero bytes. -/
theorem derivedKeyIsNeverMutated : Obligations.DerivedKeyIsNeverMutated := by
  refine ⟨fun i s s' h hinit hfinal => ?_, fun s s' h hactive b hb => ?_⟩
  · rcases exec_hmacCtx_cases h with hm | ⟨a, key, hi, _⟩ | ⟨_, _, _, hm⟩ | ⟨hi, _, _⟩
    · rw [hm]
    · exact absurd hi (hinit a key)
    · rw [hm]
    · exact absurd hi hfinal
  · obtain rfl := next_inj.mp (h.symm.trans (exec_hmacFinal_active s hactive))
    rw [State.answer_m, State.setM_m, HmacCtx.wiped_k] at hb
    exact List.eq_of_mem_replicate hb

end Sys2Proof.Machine
end

section
/-! PROOFS. The statement of spec/30_encoding.md on the accepted commands: they are the encodings of the well-formed
instructions, and their words are the table's (R96, R99). -/

namespace Sys2Proof

/-! ## The command word from its fields -/

/-- The command word of the fields `OP`, `ALG`, `DIR` and `BSB`, its reserved bits zero (R91). -/
def commandWord (op alg : BitVec 4) (dir : BitVec 1) (bsb : BitVec 16) : W32 :=
  BitVec.ofNat 32 (op.toNat + 16 * alg.toNat + 256 * dir.toNat + 65536 * bsb.toNat)

/-- A word with zero reserved bits is the word of its fields. -/
theorem eq_commandWord {w : W32} (hrsv : fieldRsv w = 0) :
    w = commandWord (fieldOp w) (fieldAlg w) (fieldDir w) (fieldBsb w) := by
  have hw := word_toNat w
  rw [hrsv] at hw
  calc w = BitVec.ofNat 32 w.toNat := by rw [BitVec.ofNat_toNat, BitVec.setWidth_eq]
    _ = commandWord (fieldOp w) (fieldAlg w) (fieldDir w) (fieldBsb w) := congrArg (BitVec.ofNat 32) hw

theorem Command.eq_of_reserved_zero {c : Command} (hrsv : fieldRsv c.cmd = 0) :
    c = ⟨commandWord (fieldOp c.cmd) (fieldAlg c.cmd) (fieldDir c.cmd) (fieldBsb c.cmd), c.key, c.tweak, c.data⟩ := by
  rw [← eq_commandWord hrsv]

/-! ## The encoder by selectors -/

theorem encode_hashInitOf (a : Alg) : encode (hashInitOf a) = ⟨commandWord 0x1 a.tag 0 0, [], [], []⟩ := by
  cases a <;> rfl

theorem encode_hmacInitOf (a : Alg) (key : Bytes) :
    encode (hmacInitOf a key) = ⟨commandWord 0x5 a.tag 0 0, key, [], []⟩ := by
  cases a <;> rfl

theorem encode_tfOf (dir : BitVec 1) (z : TfSize) (key tweak data : Bytes) :
    encode (tfOf (dirOf dir) z key tweak data) =
      ⟨commandWord 0x9 0 dir (BitVec.ofNat 16 z.bits), key, tweak, data⟩ := by
  obtain rfl | rfl : dir = 0 ∨ dir = 1 := by revert dir; decide
  all_goals cases z <;> rfl

@[simp] theorem wellFormed_hashInitOf (a : Alg) : (hashInitOf a).wellFormed = true := by
  cases a <;> rfl

@[simp] theorem wellFormed_hmacInitOf (a : Alg) (key : Bytes) : (hmacInitOf a key).wellFormed = true := by
  cases a <;> rfl

/-! ## What each case of the decoder accepts -/

/-- The two `INIT` cases read the fields alike; `P` says which operands they refuse, `f` what they accept. -/
theorem accept_of_init {c : Command} {P : Prop} [Decidable P] {f : Alg → Instr} {i : Instr}
    (h : (if fieldDir c.cmd ≠ 0 ∨ fieldBsb c.cmd ≠ 0 then Verdict.reject .illegalCommand
      else match Alg.ofTag (fieldAlg c.cmd) with
        | none => .reject .invalidAlgorithmSelector
        | some a => if P then .reject .illegalCommand else .accept (f a)) = .accept i) :
    ∃ a, i = f a ∧ fieldAlg c.cmd = a.tag ∧ fieldDir c.cmd = 0 ∧ fieldBsb c.cmd = 0 ∧ ¬P := by
  split at h
  · cases h
  next hfields =>
    obtain ⟨hdir, hbsb⟩ := not_or.mp hfields
    split at h
    · cases h
    next a htag =>
      split at h
      · cases h
      next hP =>
        cases h
        exact ⟨a, rfl, (Alg.tag_of_ofTag htag).symm, not_not.mp hdir, not_not.mp hbsb, hP⟩

theorem decodeHashInit_accept {c : Command} {i : Instr} (h : decodeHashInit c = .accept i) :
    ∃ a, i = hashInitOf a ∧ fieldAlg c.cmd = a.tag ∧ fieldDir c.cmd = 0 ∧ fieldBsb c.cmd = 0 ∧
      c.key = [] ∧ c.tweak = [] ∧ c.data = [] := by
  obtain ⟨a, hi, halg, hdir, hbsb, hoperands⟩ := accept_of_init h
  simp only [ne_eq, not_or, not_not] at hoperands
  exact ⟨a, hi, halg, hdir, hbsb, hoperands⟩

theorem decodeHmacInit_accept {c : Command} {i : Instr} (h : decodeHmacInit c = .accept i) :
    ∃ a, i = hmacInitOf a c.key ∧ fieldAlg c.cmd = a.tag ∧ fieldDir c.cmd = 0 ∧ fieldBsb c.cmd = 0 ∧
      c.tweak = [] ∧ c.data = [] := by
  obtain ⟨a, hi, halg, hdir, hbsb, hoperands⟩ := accept_of_init h
  simp only [ne_eq, not_or, not_not] at hoperands
  exact ⟨a, hi, halg, hdir, hbsb, hoperands⟩

theorem decodeTf_accept {c : Command} {i : Instr} (h : decodeTf c = .accept i) :
    ∃ z, i = tfOf (dirOf (fieldDir c.cmd)) z c.key c.tweak c.data ∧ fieldAlg c.cmd = 0 ∧
      fieldBsb c.cmd = BitVec.ofNat 16 z.bits ∧ tfOperandsFit z c.key c.tweak c.data = true := by
  unfold decodeTf at h
  split at h
  · cases h
  next halg =>
    split at h
    · cases h
    next z hsize =>
      split at h
      next hfit =>
        cases h
        exact ⟨z, rfl, not_not.mp halg, (TfSize.ofBits_some_iff _ z).mp hsize, hfit⟩
      · cases h

/-- The cases `UPDATE` and `FINAL` of both contexts accept one instruction under one check. -/
theorem accept_of_ite {b : Bool} {i j : Instr} {e : CmdError}
    (h : (if b then Verdict.accept j else .reject e) = .accept i) : b = true ∧ i = j := by
  cases b
  · cases h
  · cases h
    exact ⟨rfl, rfl⟩

/-- A command that fits an `UPDATE` is its `OP` and its `DATA`. -/
theorem eq_of_updateFits {c : Command} {op : BitVec 4} (hrsv : fieldRsv c.cmd = 0) (hop : fieldOp c.cmd = op)
    (hfit : updateFits c = true) : c = ⟨commandWord op 0 0 0, [], [], c.data⟩ := by
  simp only [updateFits, Bool.and_eq_true, decide_eq_true_eq] at hfit
  obtain ⟨⟨⟨⟨halg, hdir⟩, hbsb⟩, hkey⟩, htweak⟩ := hfit
  have hc := Command.eq_of_reserved_zero hrsv
  rwa [hop, halg, hdir, hbsb, hkey, htweak] at hc

/-- A command that fits a `FINAL` is its `OP`. -/
theorem eq_of_finalFits {c : Command} {op : BitVec 4} (hrsv : fieldRsv c.cmd = 0) (hop : fieldOp c.cmd = op)
    (hfit : finalFits c = true) : c = ⟨commandWord op 0 0 0, [], [], []⟩ := by
  simp only [finalFits, Bool.and_eq_true, decide_eq_true_eq] at hfit
  obtain ⟨hupdate, hdata⟩ := hfit
  have hc := eq_of_updateFits hrsv hop hupdate
  rwa [hdata] at hc

/-! ## An accepted command is an encoding -/

/-- The decoder accepts a command only as the well-formed instruction it encodes (R93, R96, R99). -/
theorem decode_accept {c : Command} {i : Instr} (h : decode c = .accept i) : i.wellFormed = true ∧ encode i = c := by
  rcases decode_cases c with ⟨_, hd⟩ | ⟨hrsv, ⟨hop, hd⟩ | ⟨hop, hd⟩ | ⟨hop, hd⟩ | ⟨hop, hd⟩ | ⟨hop, hd⟩ | ⟨hop, hd⟩ |
    ⟨hop, hd⟩ | ⟨_, hd⟩⟩ <;> rw [hd] at h
  · cases h
  · obtain ⟨a, rfl, halg, hdir, hbsb, hkey, htweak, hdata⟩ := decodeHashInit_accept h
    have hc := Command.eq_of_reserved_zero hrsv
    rw [hop, halg, hdir, hbsb, hkey, htweak, hdata] at hc
    exact ⟨wellFormed_hashInitOf a, (encode_hashInitOf a).trans hc.symm⟩
  · obtain ⟨hfit, rfl⟩ := accept_of_ite h
    exact ⟨rfl, (eq_of_updateFits hrsv hop hfit).symm⟩
  · obtain ⟨hfit, rfl⟩ := accept_of_ite h
    exact ⟨rfl, (eq_of_finalFits hrsv hop hfit).symm⟩
  · obtain ⟨a, rfl, halg, hdir, hbsb, htweak, hdata⟩ := decodeHmacInit_accept h
    have hc := Command.eq_of_reserved_zero hrsv
    rw [hop, halg, hdir, hbsb, htweak, hdata] at hc
    exact ⟨wellFormed_hmacInitOf a c.key, (encode_hmacInitOf a c.key).trans hc.symm⟩
  · obtain ⟨hfit, rfl⟩ := accept_of_ite h
    exact ⟨rfl, (eq_of_updateFits hrsv hop hfit).symm⟩
  · obtain ⟨hfit, rfl⟩ := accept_of_ite h
    exact ⟨rfl, (eq_of_finalFits hrsv hop hfit).symm⟩
  · obtain ⟨z, rfl, halg, hbsb, hfit⟩ := decodeTf_accept h
    have hc := Command.eq_of_reserved_zero hrsv
    rw [hop, halg, hbsb] at hc
    exact ⟨(wellFormed_tfOf _ z _ _ _).trans hfit, (encode_tfOf _ z _ _ _).trans hc.symm⟩
  · cases h

end Sys2Proof

namespace Sys2Proof.Machine

/-! ## The words of the table -/

theorem encode_cmd_mem_legalWords (i : Instr) : (encode i).cmd ∈ legalWords := by
  cases i <;> simp [encode, legalWords]

theorem commandOfWord_cmd (w : W32) : (commandOfWord w).cmd = w := by
  unfold commandOfWord
  split <;> rfl

/-- Every word of the table is accepted with the operands the model's `commandOfWord` gives it. -/
theorem exists_accept_of_mem_legalWords {w : W32} (hw : w ∈ legalWords) :
    ∃ i, decode (commandOfWord w) = .accept i := by
  unfold legalWords at hw
  fin_cases hw
  all_goals exact ⟨_, rfl⟩

/-- Settles O2: an accepted command is an encoding, hence its word is in the table; conversely the decoder accepts each word
of the table with some operands, and then the accepted command is the instruction's encoding. -/
theorem acceptedCommandsAreTheTable : Obligations.AcceptedCommandsAreTheTable := by
  unfold Obligations.AcceptedCommandsAreTheTable
  refine ⟨fun c i h => ?_, fun w hw => ?_, rfl, by decide, ?_⟩
  · obtain ⟨hwf, rfl⟩ := decode_accept h
    exact ⟨hwf, rfl, encode_cmd_mem_legalWords i⟩
  · obtain ⟨i, hi⟩ := exists_accept_of_mem_legalWords hw
    obtain ⟨hwf, henc⟩ := decode_accept hi
    exact ⟨i, hwf, by rw [henc, commandOfWord_cmd], by rw [henc, hi]⟩
  · simp only [encode, implies_true, and_self]

end Sys2Proof.Machine
end

section
/-! PROOFS. The statements of spec/40_streaming_engine.md: updates do not depend on where the data is cut (R131), and the
length counter wraps without an error (R132). -/

namespace Sys2Proof.Machine

/-! ## Updates piece by piece -/

/-- An empty update changes nothing, not even `pending` (R125, case (a)). -/
theorem absorb_nil (c : HashCtx) (hp : c.pending.length < c.alg.blockBytes) : absorb c [] = c := by
  rw [absorb_eq c [] hp, List.append_nil, compressAll_of_short _ _ hp, afterBlocks_of_short _ _ hp, List.length_nil,
    BitVec.add_zero]

theorem foldl_absorb (pieces : List Bytes) (c : HashCtx) (hp : c.pending.length < c.alg.blockBytes) :
    pieces.foldl absorb c = absorb c pieces.flatten := by
  induction pieces generalizing c with
  | nil => exact (absorb_nil c hp).symm
  | cons x pieces ih =>
    calc (x :: pieces).foldl absorb c = absorb (absorb c x) pieces.flatten := ih _ (absorb_pending_lt c x hp)
      _ = absorb c (x :: pieces).flatten := absorb_absorb c x pieces.flatten hp

/-- Settles O21, by induction on the pieces; a fresh context is then one update of the whole string. -/
theorem chunkingInvariance : Obligations.ChunkingInvariance :=
  ⟨foldl_absorb, fun a pieces => (foldl_absorb pieces _ (ctxInit_pending_lt a)).trans (absorb_ctxInit a pieces.flatten)⟩

/-! ## The length counter in the finish -/

theorem bitLength_eq_mul (t : W64) : bitLength t = t * 8 := by
  apply BitVec.eq_of_toNat_eq
  rw [bitLength, BitVec.toNat_ofNat, BitVec.toNat_mul, Nat.mul_comm]
  rfl

/-- The number of bits of 2^61 bytes is zero in 64 bits. -/
theorem bitLength_add_two_pow_61 (t : W64) : bitLength (t + 0x2000000000000000) = bitLength t := by
  have hzero : (0x2000000000000000 : W64) * 8 = 0#64 := by decide
  rw [bitLength_eq_mul, bitLength_eq_mul, BitVec.add_mul, hzero, BitVec.add_zero]

/-- Every length field reads the counter through the bit count only. -/
theorem lengthField_congr (a : Alg) {t u : W64} (h : bitLength t = bitLength u) : lengthField a t = lengthField a u := by
  cases a <;> simp only [lengthField, h]

theorem lengthField_add_two_pow_61 (a : Alg) (t : W64) :
    lengthField a (t + 0x2000000000000000) = lengthField a t :=
  lengthField_congr a (bitLength_add_two_pow_61 t)

theorem padMd_totalLen_congr (c : HashCtx) {t : W64} (h : lengthField c.alg t = lengthField c.alg c.totalLen) :
    padMd { c with totalLen := t } = padMd c :=
  congrArg (c.pending ++ [0x80] ++ rep 0 (padZeros c.alg c.pending.length) ++ ·) h

theorem finishMd_totalLen_congr (c : HashCtx) {t : W64} (h : lengthField c.alg t = lengthField c.alg c.totalLen) :
    finishMd { c with totalLen := t } = finishMd c := by
  rw [finishMd_eq_tail, finishMd_eq_tail, padMd_totalLen_congr c h]
  rfl

/-- The finish reads the counter through the length field only, whatever `pending` holds; MD2 has an empty field and reads
nothing of it (R127, R154). -/
theorem finishDigest_totalLen_congr (c : HashCtx) {t : W64} (h : lengthField c.alg t = lengthField c.alg c.totalLen) :
    finishDigest { c with totalLen := t } = finishDigest c := by
  have hmd := finishMd_totalLen_congr c h
  obtain ⟨phase, s, pending, totalLen⟩ := c
  cases s
  case md2 => rfl
  all_goals exact hmd

theorem finishDigest_add_two_pow_61 (c : HashCtx) :
    finishDigest { c with totalLen := c.totalLen + 0x2000000000000000 } = finishDigest c :=
  finishDigest_totalLen_congr c (lengthField_add_two_pow_61 c.alg c.totalLen)

theorem finishDigest_md2_totalLen (c : HashCtx) (t : W64) (h : c.alg = .md2) :
    finishDigest { c with totalLen := t } = finishDigest c :=
  finishDigest_totalLen_congr c (by rw [h]; rfl)

/-- `HASH_FINAL` reads of the counter only what the digest reads: the wiped context keeps nothing of it. -/
theorem exec_hashFinal_totalLen_congr (s : State) {t : W64} (hactive : s.h.phase = .active)
    (hdigest : finishDigest { s.h with totalLen := t } = finishDigest s.h) :
    exec .hashFinal (s.setH { s.h with totalLen := t }) = exec .hashFinal s := by
  calc exec .hashFinal (s.setH { s.h with totalLen := t })
    _ = .next ((s.setH HashCtx.wiped).answer statusOk (finishDigest { s.h with totalLen := t })) :=
        exec_hashFinal_active _ hactive
    _ = .next ((s.setH HashCtx.wiped).answer statusOk (finishDigest s.h)) := by rw [hdigest]
    _ = exec .hashFinal s := (exec_hashFinal_active s hactive).symm

/-- Settles O23: 2^61 bytes more add 2^64 bits, which the 64-bit bit count drops, and the digest reads the counter through
that count only. -/
theorem lengthFieldWrapsAtTwoToThe61 : Obligations.LengthFieldWrapsAtTwoToThe61 := by
  refine ⟨bitLength_eq_mul, lengthField_add_two_pow_61, finishDigest_add_two_pow_61, fun s hactive => ?_,
    finishDigest_md2_totalLen⟩
  have hfinal := exec_hashFinal_active s hactive
  have hwrapped := exec_hashFinal_totalLen_congr s hactive (finishDigest_add_two_pow_61 s.h)
  exact ⟨_, finishDigest s.h, hfinal, rfl, hwrapped.trans hfinal⟩

end Sys2Proof.Machine
end

section
/-! PROOFS. The statement of spec/42_md5.md: the compression function is its 64 steps and the final additions (R171, R172,
R173). -/

namespace Sys2Proof.Machine

/-! ## A step's function, message word and rotation, by round -/

/-- The round a step belongs to, by the bounds of the four rounds. -/
theorem md5_round_eq {i : Nat} (hi : i < 64) :
    i / 16 = if i < 16 then 0 else if i < 32 then 1 else if i < 48 then 2 else 3 := by
  split_ifs <;> omega

theorem md5F_eq {i : Nat} (hi : i < 64) (x y z : W32) :
    md5F i x y z =
      if i < 16 then (x &&& y) ||| (~~~x &&& z) else if i < 32 then (x &&& z) ||| (y &&& ~~~z)
        else if i < 48 then x ^^^ y ^^^ z else y ^^^ (x ||| ~~~z) := by
  rw [md5F, md5_round_eq hi]
  split_ifs <;> rfl

theorem md5G_eq {i : Nat} (hi : i < 64) :
    md5G i =
      if i < 16 then i else if i < 32 then (5 * i + 1) % 16 else if i < 48 then (3 * i + 5) % 16
        else (7 * i) % 16 := by
  rw [md5G, md5_round_eq hi]
  split_ifs <;> rfl

theorem md5R_eq {i : Nat} (hi : i < 64) :
    md5R i =
      if i < 16 then [7, 12, 17, 22].getD (i % 4) 0 else if i < 32 then [5, 9, 14, 20].getD (i % 4) 0
        else if i < 48 then [4, 11, 16, 23].getD (i % 4) 0 else [6, 10, 15, 21].getD (i % 4) 0 := by
  rw [md5R, md5_round_eq hi]
  split_ifs <;> rfl

/-- Every step reads one of the sixteen words of the block. -/
theorem md5G_lt {i : Nat} (hi : i < 64) : md5G i < 16 := by
  rw [md5G_eq hi]
  split_ifs <;> omega

/-! ## The working words along the steps -/

/-- The working words of an MD5 invocation on `blk` from the state `s`, after its first `i` steps. -/
def md5Working (s : Md5Regs) (blk : Bytes) (i : Nat) : Md5Regs :=
  (List.range i).foldl (md5Step (leWords 32 16 blk)) s

/-- One more step, its message word read from the block. -/
theorem md5Working_succ (s : Md5Regs) (blk : Bytes) {i : Nat} (hi : i < 64) :
    let v := md5Working s blk i
    md5Working s blk (i + 1) =
      { a := v.d,
        b := v.b + rotl (v.a + md5F i v.b v.c v.d + md5K.getD i 0 +
          leWord 32 ((blk.drop (4 * md5G i)).take 4)) (md5R i),
        c := v.b, d := v.c } := by
  have hword : (leWords 32 16 blk).getD (md5G i) 0 = leWord 32 ((blk.drop (4 * md5G i)).take 4) :=
    leWords_getD 32 16 blk (md5G i) (md5G_lt hi)
  intro v
  rw [← hword]
  exact md5_steps_succ (leWords 32 16 blk) s i

/-- Settles O30: the working words along the steps are the recurrence, once a step's function, message word and rotation
are read by round. -/
theorem md5CompressBySteps : Obligations.Md5CompressBySteps := by
  intro s blk
  refine ⟨md5Working s blk, rfl, fun i hi => ?_, rfl⟩
  rw [md5Working_succ s blk hi, md5F_eq hi, md5G_eq hi, md5R_eq hi]

end Sys2Proof.Machine
end

section
/-! PROOFS. The statement of spec/46_hmac.md on `HMAC_INIT`: the key derivation (R250) and the inner pass it starts
(R251). -/

namespace Sys2Proof.Machine

/-! ## The two cases of the key derivation -/

theorem derivedKey_of_long (a : Alg) (key : Bytes) (h : a.blockBytes < key.length) :
    derivedKey a key = messageDigest a key ++ rep 0 (a.blockBytes - (messageDigest a key).length) := by
  rw [derivedKey, if_pos h, messageDigest_length]

theorem derivedKey_of_fits (a : Alg) (key : Bytes) (h : key.length ≤ a.blockBytes) :
    derivedKey a key = key ++ rep 0 (a.blockBytes - key.length) := by
  rw [derivedKey, if_neg (Nat.not_lt.mpr h)]

/-! ## The start of the inner pass -/

/-- `M` after `HMAC_INIT`, without `ABSORB`: the padded key is one block, so it is compressed whole and nothing of it is
left pending. -/
theorem hmacStart_eq (a : Alg) (key : Bytes) :
    hmacStart a key =
      { phase := .active, alg := a, k := derivedKey a key,
        h := { phase := .active, s := compress (ivOf a) (xorPad innerPad (derivedKey a key)), pending := [],
               totalLen := BitVec.ofNat 64 a.blockBytes } } := by
  have hblock : (xorPad innerPad (derivedKey a key)).length = a.blockBytes := by
    rw [xorPad_length, derivedKey_length]
  rw [hmacStart, absorb_one_block a _ hblock]

/-- Settles O38: the derived key is one block by either case of the derivation, so the inner pass starts with one
compression; the rest of the next state is what every `HMAC_INIT` answers. -/
theorem hmacInitDerivesTheKey : Obligations.HmacInitDerivesTheKey := by
  intro a key s
  refine ⟨derivedKey_length a key, derivedKey_of_long a key, derivedKey_of_fits a key, ?_⟩
  rw [exec_hmacInitOf, hmacStart_eq]
  rfl

end Sys2Proof.Machine
end

section
/-! PROOFS. The statements of spec/47_threefish.md: key schedule, subkeys, one round, the whole network, and the round
trip (R271 to R273, R278, R279, R288, R290). -/

namespace Sys2Proof.Machine

/-! ## The key schedule -/

/-- The XOR of a start and a list of words, folded from the left as the model does (R271). -/
theorem foldl_xor_eq_xor_foldr {w : Nat} (c : BitVec w) (l : List (BitVec w)) :
    l.foldl (· ^^^ ·) c = c ^^^ l.foldr (· ^^^ ·) 0 := by
  induction l generalizing c with
  | nil => exact BitVec.xor_zero.symm
  | cons x l ih => rw [List.foldl_cons, ih, List.foldr_cons, BitVec.xor_assoc]

theorem foldr_xor_eq_xor_foldr {w : Nat} (c : BitVec w) (l : List (BitVec w)) :
    l.foldr (· ^^^ ·) c = c ^^^ l.foldr (· ^^^ ·) 0 := by
  induction l with
  | nil => exact BitVec.xor_zero.symm
  | cons x l ih => rw [List.foldr_cons, ih, List.foldr_cons, ← BitVec.xor_assoc, BitVec.xor_comm x c, BitVec.xor_assoc]

theorem tfKeySchedule_eq (kw : List W64) :
    tfKeySchedule kw = kw ++ [0x1BD11BDAA9FC1A22 ^^^ kw.foldr (· ^^^ ·) 0] := by
  rw [tfKeySchedule, foldl_xor_eq_xor_foldr, tfParity]

/-- The parity word takes the XOR of the key words out of the XOR of them all (R271). -/
theorem tfKeySchedule_foldr_xor (kw : List W64) : (tfKeySchedule kw).foldr (· ^^^ ·) 0 = 0x1BD11BDAA9FC1A22 := by
  calc (tfKeySchedule kw).foldr (· ^^^ ·) 0
    _ = kw.foldr (· ^^^ ·) ((0x1BD11BDAA9FC1A22 ^^^ kw.foldr (· ^^^ ·) 0) ^^^ 0) := by
      rw [tfKeySchedule_eq, List.foldr_append]
      rfl
    _ = (0x1BD11BDAA9FC1A22 ^^^ kw.foldr (· ^^^ ·) 0) ^^^ 0 ^^^ kw.foldr (· ^^^ ·) 0 := foldr_xor_eq_xor_foldr _ kw
    _ = 0x1BD11BDAA9FC1A22 := by simp

/-- Settles O50: the schedule begins with the key words, and its parity word cancels their XOR. -/
theorem keyScheduleHasAParityWord : Obligations.KeyScheduleHasAParityWord := by
  intro kw tw
  refine ⟨List.length_append, fun i hi => ?_, ?_, tfKeySchedule_foldr_xor kw, rfl⟩
  · exact List.getD_append kw _ 0 i hi
  · rw [tfKeySchedule_eq, List.getD_append_right _ _ _ _ le_rfl, Nat.sub_self]
    rfl

/-! ## The subkeys, lane by lane -/

theorem tfSubkeyExtra_of_lt {n i : Nat} (t : List W64) (s : Nat) (h : i < n - 3) : tfSubkeyExtra n t s i = 0 := by
  have h3 : i ≠ n - 3 := by omega
  have h2 : i ≠ n - 2 := by omega
  have h1 : i ≠ n - 1 := by omega
  rw [tfSubkeyExtra, if_neg h3, if_neg h2, if_neg h1]

theorem tfSubkeyExtra_first_tweak (n : Nat) (t : List W64) (s : Nat) :
    tfSubkeyExtra n t s (n - 3) = t.getD (s % 3) 0 := if_pos rfl

theorem tfSubkeyExtra_second_tweak {n : Nat} (t : List W64) (s : Nat) (h : 3 ≤ n) :
    tfSubkeyExtra n t s (n - 2) = t.getD ((s + 1) % 3) 0 := by
  have h3 : n - 2 ≠ n - 3 := by omega
  rw [tfSubkeyExtra, if_neg h3, if_pos rfl]

theorem tfSubkeyExtra_number {n : Nat} (t : List W64) (s : Nat) (h : 3 ≤ n) :
    tfSubkeyExtra n t s (n - 1) = BitVec.ofNat 64 s := by
  have h3 : n - 1 ≠ n - 3 := by omega
  have h2 : n - 1 ≠ n - 2 := by omega
  rw [tfSubkeyExtra, if_neg h3, if_neg h2, if_pos rfl]

/-- Every size has room for the three lanes a subkey adds into. -/
theorem three_lt_words (z : TfSize) : 3 < z.words := by cases z <;> decide

/-- Settles O49: a subkey's word is a key word and what its lane adds; the last three lanes are distinct at every
size. -/
theorem subkeyWordsByLane : Obligations.SubkeyWordsByLane := by
  intro z k t s _
  have hz := three_lt_words z
  refine ⟨tfSubkey_length _ k t s, fun i hi => ?_, ?_, ?_, ?_⟩
  · rw [tfSubkey_getD _ k t s i (by omega), tfSubkeyExtra_of_lt t s hi]
    exact BitVec.add_zero _
  · rw [tfSubkey_getD _ k t s _ (by omega), tfSubkeyExtra_first_tweak]
  · rw [tfSubkey_getD _ k t s _ (by omega), tfSubkeyExtra_second_tweak t s hz.le]
  · rw [tfSubkey_getD _ k t s _ (by omega), tfSubkeyExtra_number t s hz.le]

/-! ## One round -/

/-- Lane `j` mixes the words `2j` and `2j+1` by its own rotation (R277, R278). -/
theorem tfMixLanes_getD_lane (rs : List Nat) (v : List W64) (j : Nat) (hj : j < rs.length) (hv : 2 * j + 1 < v.length) :
    (tfMixLanes rs v).getD (2 * j) 0 = (tfMix (v.getD (2 * j) 0) (v.getD (2 * j + 1) 0) (rs.getD j 0)).1 ∧
    (tfMixLanes rs v).getD (2 * j + 1) 0 = (tfMix (v.getD (2 * j) 0) (v.getD (2 * j + 1) 0) (rs.getD j 0)).2 := by
  induction rs, v using tfMixLanes.induct generalizing j with
  | case1 r rs a b v ih =>
    cases j with
    | zero => exact ⟨rfl, rfl⟩
    | succ j =>
      simp only [List.length_cons] at hj hv
      exact ih j (by omega) (by omega)
  | case2 rs v hn =>
    obtain ⟨r, rs, rfl⟩ := List.exists_cons_of_length_pos (Nat.zero_lt_of_lt hj)
    match v, hv with
    | a :: b :: v, _ => exact absurd rfl (hn r rs a b v rfl)

@[simp] theorem tfRot_length (z : TfSize) (d : Nat) : (tfRot z d).length = z.words / 2 := by
  have h : ∀ k, k < 8 → ((tfRotTable z).getD k []).length = z.words / 2 := by cases z <;> decide
  exact h (d % 8) (Nat.mod_lt _ (by decide))

theorem words_even (z : TfSize) : z.words % 2 = 0 := by cases z <;> rfl

/-- A word of the MIXed block, by the lane it lies in. -/
theorem tfMixLanes_tfRot_getD (z : TfSize) (d : Nat) (v : List W64) (hv : v.length = z.words) (i : Nat)
    (hi : i < z.words) : (tfMixLanes (tfRot z d) v).getD i 0 = mixedWord z d v i := by
  have hz := words_even z
  obtain ⟨hfst, hsnd⟩ := tfMixLanes_getD_lane (tfRot z d) v (i / 2) (by rw [tfRot_length]; omega) (by omega)
  rcases Nat.mod_two_eq_zero_or_one i with hmod | hmod
  · have hi2 : i = 2 * (i / 2) := by omega
    exact (congrArg (fun x => (tfMixLanes (tfRot z d) v).getD x 0) hi2).trans (hfst.trans (if_pos hmod).symm)
  · have hi2 : i = 2 * (i / 2) + 1 := by omega
    exact (congrArg (fun x => (tfMixLanes (tfRot z d) v).getD x 0) hi2).trans (hsnd.trans (if_neg (by omega)).symm)

/-- Settles O48: the permutation picks a word of the MIXed block, and each of the round's two parts has its inverse. -/
theorem roundMixesAndPermutes : Obligations.RoundMixesAndPermutes := by
  intro z d v hv
  refine ⟨tfRound_length z d v, fun i hi => ?_, tfUnround_round z d v hv, tfRound_unround z d v hv⟩
  have hperm := (tfPerm_inverse z i hi).2.1
  rw [tfRound, tfPermute_getD _ _ i (by rwa [tfPerm_length]), tfMixLanes_tfRot_getD z d v hv _ hperm]

/-! ## The network, round by round -/

/-- The block of an encryption before round `d`. -/
def tfEncryptedTo (z : TfSize) (k t v : List W64) (d : Nat) : List W64 :=
  (List.range d).foldl (tfEncryptRound z k t) v

theorem tfEncryptedTo_succ (z : TfSize) (k t v : List W64) (d : Nat) :
    tfEncryptedTo z k t v (d + 1) = tfEncryptRound z k t (tfEncryptedTo z k t v d) d := by
  rw [tfEncryptedTo, List.range_succ, List.foldl_append]
  rfl

/-- The block of a decryption once the rounds from the last down to round `d` are undone. -/
def tfDecryptedTo (z : TfSize) (k t v : List W64) (d : Nat) : List W64 :=
  (List.range' d (z.rounds - d)).foldr (tfDecryptRound z k t) (tfSubSubkey v (tfSubkey z.words k t (z.rounds / 4)))

theorem tfDecryptedTo_rounds (z : TfSize) (k t v : List W64) :
    tfDecryptedTo z k t v z.rounds = tfSubSubkey v (tfSubkey z.words k t (z.rounds / 4)) := by
  rw [tfDecryptedTo, Nat.sub_self]
  rfl

theorem tfDecryptedTo_of_lt (z : TfSize) (k t v : List W64) {d : Nat} (hd : d < z.rounds) :
    tfDecryptedTo z k t v d = tfDecryptRound z k t d (tfDecryptedTo z k t v (d + 1)) := by
  have hlen : z.rounds - d = z.rounds - (d + 1) + 1 := by omega
  rw [tfDecryptedTo, hlen, List.range'_succ]
  rfl

theorem tfDecryptWords_eq (z : TfSize) (k t v : List W64) : tfDecryptWords z k t v = tfDecryptedTo z k t v 0 := by
  rw [tfDecryptWords, List.range_eq_range']
  rfl

/-- Settles O46: the blocks before each round are the recurrence, and decryption runs the same recurrence backwards. -/
theorem threefishNetworkByRounds : Obligations.ThreefishNetworkByRounds := fun z k t v =>
  ⟨⟨tfEncryptedTo z k t v, rfl, fun d _ => tfEncryptedTo_succ z k t v d, rfl⟩,
    tfDecryptedTo z k t v, tfDecryptedTo_rounds z k t v, fun _ hd => tfDecryptedTo_of_lt z k t v hd,
    tfDecryptWords_eq z k t v⟩

/-! ## The round trip on words -/

theorem foldl_tfEncryptRound_length (z : TfSize) (k t : List W64) (rounds : List Nat) (v : List W64)
    (hv : v.length = z.words) : (rounds.foldl (tfEncryptRound z k t) v).length = z.words := by
  induction rounds generalizing v with
  | nil => exact hv
  | cons d rounds ih => exact ih _ (tfEncryptRound_length z k t v d)

theorem foldr_tfDecryptRound_length (z : TfSize) (k t : List W64) (rounds : List Nat) (v : List W64)
    (hv : v.length = z.words) : (rounds.foldr (tfDecryptRound z k t) v).length = z.words := by
  cases rounds with
  | nil => exact hv
  | cons d rounds => exact tfDecryptRound_length z k t d _

theorem foldr_decrypt_foldl_encrypt (z : TfSize) (k t : List W64) (rounds : List Nat) (v : List W64)
    (hv : v.length = z.words) :
    rounds.foldr (tfDecryptRound z k t) (rounds.foldl (tfEncryptRound z k t) v) = v := by
  induction rounds generalizing v with
  | nil => rfl
  | cons d rounds ih =>
    rw [List.foldl_cons, List.foldr_cons, ih _ (tfEncryptRound_length z k t v d),
      tfDecryptRound_encryptRound z k t v d hv]

theorem foldl_encrypt_foldr_decrypt (z : TfSize) (k t : List W64) (rounds : List Nat) (v : List W64)
    (hv : v.length = z.words) :
    rounds.foldl (tfEncryptRound z k t) (rounds.foldr (tfDecryptRound z k t) v) = v := by
  induction rounds with
  | nil => rfl
  | cons d rounds ih =>
    rw [List.foldr_cons, List.foldl_cons,
      tfEncryptRound_decryptRound z k t _ d (foldr_tfDecryptRound_length z k t rounds v hv), ih]

theorem tfDecryptWords_encryptWords (z : TfSize) (k t v : List W64) (hv : v.length = z.words) :
    tfDecryptWords z k t (tfEncryptWords z k t v) = v := by
  have hlen := foldl_tfEncryptRound_length z k t (List.range z.rounds) v hv
  rw [tfDecryptWords, tfEncryptWords, tfSub_add _ _ (by rw [hlen, tfSubkey_length]),
    foldr_decrypt_foldl_encrypt z k t _ v hv]

theorem tfEncryptWords_decryptWords (z : TfSize) (k t v : List W64) (hv : v.length = z.words) :
    tfEncryptWords z k t (tfDecryptWords z k t v) = v := by
  have hlen : (tfSubSubkey v (tfSubkey z.words k t (z.rounds / 4))).length = z.words := by simp [hv]
  rw [tfEncryptWords, tfDecryptWords, foldl_encrypt_foldr_decrypt z k t _ _ hlen,
    tfAdd_sub _ _ (by rw [hv, tfSubkey_length])]

/-! ## The round trip on commands -/

/-- The other direction. -/
def oppositeDir : Dir → Dir
  | .encrypt => .decrypt
  | .decrypt => .encrypt

/-- The words of the block a Threefish command answers. -/
def tfOutputWords (d : Dir) (z : TfSize) (k t v : List W64) : List W64 :=
  match d with
  | .encrypt => tfEncryptWords z k t v
  | .decrypt => tfDecryptWords z k t v

theorem tfOutput_eq (d : Dir) (z : TfSize) (key tweak data : Bytes) :
    tfOutput d z key tweak data =
      bytesOfLeWords (tfOutputWords d z (tfKeySchedule (leWords 64 z.words key)) (tfTweakSchedule (leWords 64 2 tweak))
        (leWords 64 z.words data)) := by
  cases d <;> rfl

theorem tfOutputWords_length (d : Dir) (z : TfSize) (k t v : List W64) (hv : v.length = z.words) :
    (tfOutputWords d z k t v).length = z.words := by
  cases d with
  | encrypt => simp [tfOutputWords, tfEncryptWords, foldl_tfEncryptRound_length z k t _ v hv]
  | decrypt => exact foldr_tfDecryptRound_length z k t _ _ (by simp [hv])

theorem tfOutputWords_opposite (d : Dir) (z : TfSize) (k t v : List W64) (hv : v.length = z.words) :
    tfOutputWords (oppositeDir d) z k t (tfOutputWords d z k t v) = v := by
  cases d with
  | encrypt => exact tfDecryptWords_encryptWords z k t v hv
  | decrypt => exact tfEncryptWords_decryptWords z k t v hv

theorem blockBytes_eq_words (z : TfSize) : z.blockBytes = 8 * z.words := by cases z <;> rfl

theorem leWords_bytesOfLeWords64_of_length {n : Nat} {ws : List W64} (h : ws.length = n) :
    leWords 64 n (bytesOfLeWords ws) = ws := h ▸ leWords_bytesOfLeWords64 ws

/-- The answered block is decoded to the words it was made of, so the opposite direction answers the block (R276,
R290). -/
theorem tfOutput_opposite (d : Dir) (z : TfSize) (key tweak data : Bytes) (hdata : data.length = z.blockBytes) :
    tfOutput (oppositeDir d) z key tweak (tfOutput d z key tweak data) = data := by
  have hv := leWords_length 64 z.words data
  rw [tfOutput_eq, tfOutput_eq d, leWords_bytesOfLeWords64_of_length (tfOutputWords_length d z _ _ _ hv),
    tfOutputWords_opposite d z _ _ _ hv, bytesOfLeWords_leWords64 _ _ (hdata.trans (blockBytes_eq_words z))]

/-- A command of either direction answers a block that the command of the opposite direction takes, and that one answers
the first block. -/
theorem exec_tfOf_opposite (d : Dir) {z : TfSize} {key tweak data : Bytes} (s : State)
    (hfit : tfOperandsFit z key tweak data = true) :
    ∃ out, exec (tfOf d z key tweak data) s = .next { s with responses := s.responses ++ [okResponse out] } ∧
      tfOperandsFit z key tweak out = true ∧
      ∀ t, exec (tfOf (oppositeDir d) z key tweak out) t =
        .next { t with responses := t.responses ++ [okResponse data] } := by
  obtain ⟨hkey, htweak, hdata⟩ := (tfOperandsFit_iff z key tweak data).mp hfit
  refine ⟨tfOutput d z key tweak data, exec_tfOf d z key tweak data s, ?_, fun t => ?_⟩
  · exact (tfOperandsFit_iff _ _ _ _).mpr ⟨hkey, htweak, tfOutput_length d z key tweak data⟩
  · rw [exec_tfOf, tfOutput_opposite d z key tweak data hdata]
    rfl

/-- Settles O45: the rounds and their subkeys are undone one by one, in either direction; a command decodes its block
and encodes the transformed one, and these two undo each other. -/
theorem threefishRoundTrip : Obligations.ThreefishRoundTrip :=
  ⟨fun z k t v hv => ⟨tfDecryptWords_encryptWords z k t v hv, tfEncryptWords_decryptWords z k t v hv⟩,
    fun _ _ _ _ s hfit => ⟨exec_tfOf_opposite .encrypt s hfit, exec_tfOf_opposite .decrypt s hfit⟩⟩

end Sys2Proof.Machine
end

section
/-! PROOFS. The statements of spec/60_exceptions.md: which commands raise each error and what it answers (R300, R301,
R302, R304), and that an error leaves no trace (R303) and is not sticky (R308). -/

namespace Sys2Proof

/-! ## The commands of the two selector errors -/

/-- A Threefish word of a size other than 256, 512 and 1024, the fields before the size zero (R300). -/
def Command.HasUnsupportedSize (c : Command) : Prop :=
  fieldRsv c.cmd = 0 ∧ fieldOp c.cmd = 0x9 ∧ fieldAlg c.cmd = 0 ∧
    fieldBsb c.cmd ≠ 256 ∧ fieldBsb c.cmd ≠ 512 ∧ fieldBsb c.cmd ≠ 1024

/-- An `INIT` word of an unrecognized tag, the other fields zero (R301). -/
def Command.HasUnrecognizedTag (c : Command) : Prop :=
  fieldRsv c.cmd = 0 ∧ (fieldOp c.cmd = 0x1 ∨ fieldOp c.cmd = 0x5) ∧
    fieldDir c.cmd = 0 ∧ fieldBsb c.cmd = 0 ∧ 7 ≤ (fieldAlg c.cmd).toNat

theorem Command.HasUnsupportedSize.decode_eq {c : Command} (h : c.HasUnsupportedSize) :
    decode c = .reject .unsupportedBlockSize := by
  obtain ⟨hrsv, hop, halg, hsize⟩ := h
  simp [decode, decodeTf, hrsv, hop, halg, (TfSize.ofBits_none_iff _).mpr hsize]

theorem Command.HasUnrecognizedTag.decode_eq {c : Command} (h : c.HasUnrecognizedTag) :
    decode c = .reject .invalidAlgorithmSelector := by
  obtain ⟨hrsv, hop, hdir, hbsb, htag⟩ := h
  have hnone := (Alg.ofTag_none_iff _).mpr htag
  rcases hop with hop | hop
  · simp [decode, decodeHashInit, hrsv, hop, hdir, hbsb, hnone]
  · simp [decode, decodeHmacInit, hrsv, hop, hdir, hbsb, hnone]

/-! ## What each case of the decoder refuses -/

/-- The two `INIT` cases read the fields alike; `P` says which operands they refuse, `f` what they accept. -/
theorem reject_of_init {c : Command} {P : Prop} [Decidable P] {f : Alg → Instr} {e : CmdError}
    (h : (if fieldDir c.cmd ≠ 0 ∨ fieldBsb c.cmd ≠ 0 then Verdict.reject .illegalCommand
      else match Alg.ofTag (fieldAlg c.cmd) with
        | none => .reject .invalidAlgorithmSelector
        | some a => if P then .reject .illegalCommand else .accept (f a)) = .reject e) :
    e = .illegalCommand ∨
      e = .invalidAlgorithmSelector ∧ fieldDir c.cmd = 0 ∧ fieldBsb c.cmd = 0 ∧ 7 ≤ (fieldAlg c.cmd).toNat := by
  split at h
  · cases h
    exact .inl rfl
  next hfields =>
    obtain ⟨hdir, hbsb⟩ := not_or.mp hfields
    split at h
    next htag =>
      cases h
      exact .inr ⟨rfl, not_not.mp hdir, not_not.mp hbsb, (Alg.ofTag_none_iff _).mp htag⟩
    · split at h <;> cases h
      exact .inl rfl

theorem decodeTf_reject {c : Command} {e : CmdError} (h : decodeTf c = .reject e) :
    e = .illegalCommand ∨ e = .unsupportedBlockSize ∧ fieldAlg c.cmd = 0 ∧
      fieldBsb c.cmd ≠ 256 ∧ fieldBsb c.cmd ≠ 512 ∧ fieldBsb c.cmd ≠ 1024 := by
  unfold decodeTf at h
  split at h
  · cases h
    exact .inl rfl
  next halg =>
    split at h
    next hsize =>
      cases h
      exact .inr ⟨rfl, not_not.mp halg, (TfSize.ofBits_none_iff _).mp hsize⟩
    · split at h <;> cases h
      exact .inl rfl

/-- The cases `UPDATE` and `FINAL` of both contexts refuse with one error. -/
theorem reject_of_ite {b : Bool} {j : Instr} {e e' : CmdError}
    (h : (if b then Verdict.accept j else .reject e) = .reject e') : e' = e := by
  cases b <;> cases h
  rfl

/-- Everything a refusal can be: `IllegalCommand`, or one of the two selector errors of a command of its own. -/
theorem decode_reject {c : Command} {e : CmdError} (h : decode c = .reject e) :
    e = .illegalCommand ∨ (e = .unsupportedBlockSize ∧ c.HasUnsupportedSize) ∨
      (e = .invalidAlgorithmSelector ∧ c.HasUnrecognizedTag) := by
  rcases decode_cases c with ⟨_, hd⟩ | ⟨hrsv, ⟨hop, hd⟩ | ⟨_, hd⟩ | ⟨_, hd⟩ | ⟨hop, hd⟩ | ⟨_, hd⟩ | ⟨_, hd⟩ |
    ⟨hop, hd⟩ | ⟨_, hd⟩⟩ <;> rw [hd] at h
  · cases h
    exact .inl rfl
  · exact (reject_of_init h).imp_right fun ⟨he, hfields⟩ => .inr ⟨he, hrsv, .inl hop, hfields⟩
  · exact .inl (reject_of_ite h)
  · exact .inl (reject_of_ite h)
  · exact (reject_of_init h).imp_right fun ⟨he, hfields⟩ => .inr ⟨he, hrsv, .inr hop, hfields⟩
  · exact .inl (reject_of_ite h)
  · exact .inl (reject_of_ite h)
  · exact (decodeTf_reject h).imp_right fun ⟨he, hfields⟩ => .inl ⟨he, hrsv, hop, hfields⟩
  · cases h
    exact .inl rfl

theorem decode_eq_unsupportedBlockSize_iff (c : Command) :
    decode c = .reject .unsupportedBlockSize ↔ c.HasUnsupportedSize := by
  refine ⟨fun h => ?_, fun h => h.decode_eq⟩
  obtain he | ⟨_, hc⟩ | ⟨he, _⟩ := decode_reject h
  · cases he
  · exact hc
  · cases he

theorem decode_eq_invalidAlgorithmSelector_iff (c : Command) :
    decode c = .reject .invalidAlgorithmSelector ↔ c.HasUnrecognizedTag := by
  refine ⟨fun h => ?_, fun h => h.decode_eq⟩
  obtain he | ⟨he, _⟩ | ⟨_, hc⟩ := decode_reject h
  · cases he
  · cases he
  · exact hc

/-- `InvalidSequence` is no verdict of the decoder: it needs the phase, which the decoder does not see (R302). -/
theorem decode_ne_invalidSequence (c : Command) : decode c ≠ .reject .invalidSequence := fun h => by
  obtain he | ⟨he, _⟩ | ⟨he, _⟩ := decode_reject h <;> cases he

/-! ## An encoding is accepted -/

theorem commandWord_toNat (op alg : BitVec 4) (dir : BitVec 1) (bsb : BitVec 16) :
    (commandWord op alg dir bsb).toNat = op.toNat + 16 * alg.toNat + 256 * dir.toNat + 65536 * bsb.toNat := by
  rw [commandWord, BitVec.toNat_ofNat]
  omega

/-- The fields of a command word are the ones it was made of, and its reserved bits are zero. -/
theorem fields_commandWord (op alg : BitVec 4) (dir : BitVec 1) (bsb : BitVec 16) :
    fieldOp (commandWord op alg dir bsb) = op ∧ fieldAlg (commandWord op alg dir bsb) = alg ∧
      fieldDir (commandWord op alg dir bsb) = dir ∧ fieldRsv (commandWord op alg dir bsb) = 0 ∧
      fieldBsb (commandWord op alg dir bsb) = bsb := by
  have hword := word_toNat (commandWord op alg dir bsb)
  rw [commandWord_toNat] at hword
  refine ⟨?_, ?_, ?_, ?_, ?_⟩ <;> bv_omega

/-- The decoder reads a well-formed instruction back from its encoding (R96, R99). -/
theorem decode_encode {i : Instr} (hwf : i.wellFormed = true) : decode (encode i) = .accept i := by
  rcases Machine.instr_cases i with
    ⟨a, rfl⟩ | ⟨data, rfl⟩ | rfl | ⟨a, key, rfl⟩ | ⟨data, rfl⟩ | rfl | ⟨d, z, key, tweak, data, rfl⟩
  · rw [encode_hashInitOf]
    simp [decode, decodeHashInit, fields_commandWord]
  · have henc : encode (.hashUpdate data) = ⟨commandWord 0x2 0 0 0, [], [], data⟩ := rfl
    simp [henc, decode, decodeHashUpdate, updateFits, fields_commandWord]
  · rfl
  · rw [encode_hmacInitOf]
    simp [decode, decodeHmacInit, fields_commandWord]
  · have henc : encode (.hmacUpdate data) = ⟨commandWord 0x6 0 0 0, [], [], data⟩ := rfl
    simp [henc, decode, decodeHmacUpdate, updateFits, fields_commandWord]
  · rfl
  · obtain ⟨dir, rfl⟩ : ∃ dir, dirOf dir = d := by cases d; exacts [⟨0, rfl⟩, ⟨1, rfl⟩]
    have hfit := (wellFormed_tfOf _ z key tweak data).symm.trans hwf
    have hsize := (TfSize.ofBits_some_iff _ z).mpr rfl
    rw [encode_tfOf]
    simp [decode, decodeTf, fields_commandWord, hsize, hfit]

theorem decode_eq_illegalCommand_iff (c : Command) :
    decode c = .reject .illegalCommand ↔
      (∀ i, i.wellFormed = true → encode i ≠ c) ∧
        decode c ≠ .reject .unsupportedBlockSize ∧ decode c ≠ .reject .invalidAlgorithmSelector := by
  constructor
  · intro h
    refine ⟨fun i hwf henc => ?_, by simp [h], by simp [h]⟩
    rw [← henc, decode_encode hwf] at h
    cases h
  · rintro ⟨hnoenc, hsize, htag⟩
    cases hd : decode c with
    | accept i =>
      obtain ⟨hwf, henc⟩ := decode_accept hd
      exact absurd henc (hnoenc i hwf)
    | reject e =>
      obtain rfl | ⟨rfl, _⟩ | ⟨rfl, _⟩ := decode_reject hd
      · rfl
      · exact absurd hd hsize
      · exact absurd hd htag

end Sys2Proof

namespace Sys2Proof.Machine

/-! ## The errors of the decoder -/

/-- Settles O4: the decoder raises this error in its Threefish case alone, where the size is read before any operand. -/
theorem unsupportedSizeIsRaisedExactlyThere : Obligations.UnsupportedSizeIsRaisedExactlyThere :=
  ⟨decode_eq_unsupportedBlockSize_iff, fun s c rest hin hd => step_reject s c rest .unsupportedBlockSize hin hd⟩

/-- Settles O5: the decoder raises this error in its two `INIT` cases alone, where the tag is read before any
operand. -/
theorem unrecognizedTagIsRaisedExactlyThere : Obligations.UnrecognizedTagIsRaisedExactlyThere :=
  ⟨decode_eq_invalidAlgorithmSelector_iff,
    fun s c rest hin hd => step_reject s c rest .invalidAlgorithmSelector hin hd⟩

/-- Settles O6: an encoding is accepted and an accepted command is one, so what is neither accepted nor refused for its
selector is refused with this error. -/
theorem illegalCommandIsEveryOtherWord : Obligations.IllegalCommandIsEveryOtherWord :=
  ⟨decode_eq_illegalCommand_iff, decode_ne_invalidSequence,
    fun s c rest hin hd => step_reject s c rest .illegalCommand hin hd⟩

/-! ## The error of the phase check -/

/-- Settles O14: each of the four commands finds its context idle and raises the error with the state as it is. -/
theorem idleContextsRaiseInvalidSequence : Obligations.IdleContextsRaiseInvalidSequence :=
  ⟨exec_hashUpdate_idle, exec_hashFinal_idle, exec_hmacUpdate_idle, exec_hmacFinal_idle⟩

/-! ## An error changes nothing but the responses -/

/-- A command answers one response, of success or of an error; with an error it leaves both contexts. -/
theorem exec_ok_or_error (i : Instr) (s : State) :
    ∃ c m r, exec i s = .next { h := c, m := m, inputs := s.inputs, responses := s.responses ++ [r] } ∧
      (r.status = statusOk ∨ c = s.h ∧ m = s.m ∧ r.dout = []) := by
  obtain ⟨c, m, r, hexec, hshape⟩ := exec_cases i s
  refine ⟨c, m, r, hexec, ?_⟩
  rcases hshape with ⟨_, _, _, _, rfl⟩ | ⟨_, _, _, _, _, rfl⟩ | ⟨_, _, _, _, rfl⟩ | ⟨_, _, hc, hm, rfl⟩ |
    ⟨_, _, _, _, _, rfl⟩ | ⟨_, _, _, _, _, rfl⟩ | ⟨_, _, _, _, rfl⟩ | ⟨_, _, hc, hm, rfl⟩ |
    ⟨_, _, _, _, _, _, _, _, rfl⟩
  · exact .inl rfl
  · exact .inl rfl
  · exact .inl rfl
  · exact .inr ⟨hc, hm, rfl⟩
  · exact .inl rfl
  · exact .inl rfl
  · exact .inl rfl
  · exact .inr ⟨hc, hm, rfl⟩
  · exact .inl rfl

/-- A step that takes a command adds one response; when it is an error, the command is gone and nothing else changed. -/
theorem step_of_error {s s' : State} {c : Command} {rest : List Input} {r : Response}
    (hin : s.inputs = .command c :: rest) (hstep : step s = .next s') (hresp : s'.responses = s.responses ++ [r])
    (herr : r.status ≠ statusOk) :
    s' = { s with inputs := rest, responses := s.responses ++ [r] } ∧ r.dout = [] := by
  cases hd : decode c with
  | reject e =>
    rw [step_reject s c rest e hin hd, next_inj] at hstep
    subst hstep
    obtain rfl : _ = r := by simpa using hresp
    exact ⟨rfl, rfl⟩
  | accept i =>
    obtain ⟨c', m, r', hexec, hr⟩ := exec_ok_or_error i (s.setInputs rest)
    rw [step_accept s c rest i hin hd, hexec, next_inj] at hstep
    subst hstep
    obtain rfl : r' = r := by simpa using hresp
    obtain ⟨rfl, rfl, hdout⟩ := hr.resolve_left herr
    exact ⟨rfl, hdout⟩

/-- Settles O9: such a step took the command, added its response, and is otherwise the state before it. -/
theorem errorsLeaveNoTrace : Obligations.ErrorsLeaveNoTrace := by
  intro s s' c rest r hin hstep hresp herr
  obtain ⟨rfl, hdout⟩ := step_of_error hin hstep hresp herr
  exact ⟨rfl, rfl, rfl, hdout⟩

/-! ## An error does not reach the next step -/

/-- What a step does depends on no response given so far: it adds its own after them. -/
theorem step_uniform (s : State) :
    ∃ (t : State) (new : List Response), ∀ rs,
      step { s with responses := rs } = .next { t with responses := rs ++ new } := by
  obtain ⟨h, m, inputs, responses⟩ := s
  cases inputs with
  | nil =>
    refine ⟨{ h := h, m := m, inputs := [], responses := [] }, [], fun rs => ?_⟩
    rw [step_no_input _ rfl, List.append_nil]
  | cons x rest =>
    cases x with
    | reset =>
      refine ⟨State.reset.setInputs rest, [], fun rs => ?_⟩
      rw [step_reset _ rest rfl, List.append_nil]
      rfl
    | command c =>
      cases hd : decode c with
      | reject e =>
        exact ⟨{ h := h, m := m, inputs := rest, responses := [] }, [errorResponse e],
          fun rs => step_reject _ c rest e rfl hd⟩
      | accept i =>
        obtain ⟨c', m', r, hexec⟩ := exec_uniform i { h := h, m := m, inputs := rest, responses := [] }
        exact ⟨{ h := c', m := m', inputs := rest, responses := [] }, [r],
          fun rs => (step_accept _ c rest i rfl hd).trans (hexec rest rs)⟩

/-- Settles O10: the failing command leaves the state it found but for the response, on which the next step does not
depend. -/
theorem errorsAreNotSticky : Obligations.ErrorsAreNotSticky := by
  intro s s' c rest e hin hstep hresp
  obtain ⟨rfl, _⟩ := step_of_error hin hstep hresp (statusOf_ne_ok e)
  obtain ⟨t, new, hnext⟩ := step_uniform { s with inputs := rest }
  exact ⟨t, new, hnext s.responses, hnext (s.responses ++ [errorResponse e])⟩

end Sys2Proof.Machine
end

section
/-! PROOFS. The statements of spec/30_encoding.md on the decoder: it reads every encoding back (R96, R99), refuses a word for
each of the causes in the order of its checks (R99, R305), and the assembly lines and pseudo-commands are commands of the
table (R102, R103). -/

namespace Sys2Proof

open Machine

/-! ## Reading back -/

/-- Settles O1: the fields of an encoding are the selectors of the instruction's shape, and the operands fit by
well-formedness. -/
theorem decodeOfEncodeIsTheInstruction : Obligations.DecodeOfEncodeIsTheInstruction := fun _ hwf => decode_encode hwf

/-- Settles O3: the decoder run on the words. -/
theorem tableWordsDecode : Obligations.TableWordsDecode := by
  unfold Obligations.TableWordsDecode
  decide

/-! ## What each case of the decoder refuses as illegal -/

theorem decodeHashInit_illegal {c : Command} (h : fieldDir c.cmd ≠ 0 ∨ fieldBsb c.cmd ≠ 0) :
    decodeHashInit c = .reject .illegalCommand := if_pos h

theorem decodeHmacInit_illegal {c : Command} (h : fieldDir c.cmd ≠ 0 ∨ fieldBsb c.cmd ≠ 0) :
    decodeHmacInit c = .reject .illegalCommand := if_pos h

/-- A recognized tag is looked up before the operands are checked. -/
theorem exists_ofTag {t : BitVec 4} (h : t.toNat < 7) : ∃ a, Alg.ofTag t = some a :=
  Option.ne_none_iff_exists'.mp fun hnone => Nat.not_le.mpr h ((Alg.ofTag_none_iff t).mp hnone)

theorem decodeHashInit_illegal_of_operand {c : Command} (htag : (fieldAlg c.cmd).toNat < 7)
    (h : c.key ≠ [] ∨ c.tweak ≠ [] ∨ c.data ≠ []) : decodeHashInit c = .reject .illegalCommand := by
  obtain ⟨a, ha⟩ := exists_ofTag htag
  simp only [decodeHashInit, ha, if_pos h, ite_self]

theorem decodeHmacInit_illegal_of_operand {c : Command} (htag : (fieldAlg c.cmd).toNat < 7)
    (h : c.tweak ≠ [] ∨ c.data ≠ []) : decodeHmacInit c = .reject .illegalCommand := by
  obtain ⟨a, ha⟩ := exists_ofTag htag
  simp only [decodeHmacInit, ha, if_pos h, ite_self]

theorem updateFits_eq_false {c : Command}
    (h : fieldAlg c.cmd ≠ 0 ∨ fieldDir c.cmd ≠ 0 ∨ fieldBsb c.cmd ≠ 0 ∨ c.key ≠ [] ∨ c.tweak ≠ []) :
    updateFits c = false := by
  simp only [updateFits, Bool.and_eq_false_iff, decide_eq_false_iff_not]
  tauto

theorem finalFits_eq_false {c : Command} (h : c.data ≠ []) : finalFits c = false := by simp [finalFits, h]

theorem decodeTf_illegal_of_alg {c : Command} (h : fieldAlg c.cmd ≠ 0) : decodeTf c = .reject .illegalCommand :=
  if_pos h

theorem TfSize.blockBytes_of_ofBits {b : BitVec 16} {z : TfSize} (h : TfSize.ofBits b = some z) :
    z.blockBytes = b.toNat / 8 := by
  rw [TfSize.ofBits_some_iff] at h
  subst h
  cases z <;> rfl

/-- The operand lengths are checked against a supported size, after `ALG` (R289). -/
theorem decodeTf_illegal_of_length {c : Command} (hsize : (fieldBsb c.cmd).toNat ∈ [256, 512, 1024])
    (h : c.key.length ≠ (fieldBsb c.cmd).toNat / 8 ∨ c.tweak.length ≠ 16 ∨
      c.data.length ≠ (fieldBsb c.cmd).toNat / 8) :
    decodeTf c = .reject .illegalCommand := by
  obtain ⟨z, hz⟩ : ∃ z, TfSize.ofBits (fieldBsb c.cmd) = some z := by
    simp only [List.mem_cons, List.not_mem_nil, or_false] at hsize
    rcases hsize with hb | hb | hb <;> simp [TfSize.ofBits, hb]
  have hfit : ¬ tfOperandsFit z c.key c.tweak c.data = true := by
    rw [tfOperandsFit_iff, TfSize.blockBytes_of_ofBits hz]
    tauto
  simp only [decodeTf, hz, if_neg hfit, ite_self]

/-- The dispatch on `OP`: a command is illegal when the case its `OP` selects, if any, says so. A set reserved bit makes it
illegal before that (R99). -/
theorem decode_illegal {c : Command}
    (h1 : fieldOp c.cmd = 0x1 → decodeHashInit c = .reject .illegalCommand)
    (h2 : fieldOp c.cmd ∈ [0x2, 0x6] → updateFits c = false)
    (h3 : fieldOp c.cmd ∈ [0x3, 0x7] → finalFits c = false)
    (h5 : fieldOp c.cmd = 0x5 → decodeHmacInit c = .reject .illegalCommand)
    (h9 : fieldOp c.cmd = 0x9 → decodeTf c = .reject .illegalCommand) : decode c = .reject .illegalCommand := by
  rcases decode_cases c with ⟨_, hd⟩ | ⟨_, ⟨hop, hd⟩ | ⟨hop, hd⟩ | ⟨hop, hd⟩ | ⟨hop, hd⟩ | ⟨hop, hd⟩ | ⟨hop, hd⟩ |
    ⟨hop, hd⟩ | ⟨_, hd⟩⟩ <;> rw [hd]
  · exact h1 hop
  · rw [decodeHashUpdate, h2 (by simp [hop])]; rfl
  · rw [decodeHashFinal, h3 (by simp [hop])]; rfl
  · exact h5 hop
  · rw [decodeHmacUpdate, h2 (by simp [hop])]; rfl
  · rw [decodeHmacFinal, h3 (by simp [hop])]; rfl
  · exact h9 hop

/-- Settles O7: each cause is one check of the case that the `OP` selects; the other cases are not reached. -/
theorem illegalWordsByCause : Obligations.IllegalWordsByCause := by
  intro c
  simp only [List.mem_cons, List.not_mem_nil, or_false]
  refine ⟨fun h => if_pos h, fun hop => ?_, fun hop h => ?_, fun hop h => ?_, fun hop h => ?_, fun hop htag h => ?_,
    fun hop htag h => ?_, fun hop h => ?_, fun hop hsize h => ?_⟩
  · rcases decode_cases c with ⟨_, hd⟩ | ⟨_, hcase⟩
    · exact hd
    · tauto
  · rcases hop with hop | hop <;> apply decode_illegal <;> simp [hop, decodeHashInit_illegal h, decodeHmacInit_illegal h]
  · have hfit := updateFits_eq_false h
    rcases hop with hop | hop | hop | hop <;> apply decode_illegal <;> simp [hop, hfit, finalFits]
  · have hfit := finalFits_eq_false h
    rcases hop with hop | hop <;> apply decode_illegal <;> simp [hop, hfit]
  · have hhash := decodeHashInit_illegal_of_operand htag (.inr h)
    have hhmac := decodeHmacInit_illegal_of_operand htag h
    rcases hop with hop | hop <;> apply decode_illegal <;> simp [hop, hhash, hhmac]
  · have hhash := decodeHashInit_illegal_of_operand htag (.inl h)
    apply decode_illegal <;> simp [hop, hhash]
  · apply decode_illegal <;> simp [hop, decodeTf_illegal_of_alg h]
  · apply decode_illegal <;> simp [hop, decodeTf_illegal_of_length (by simpa using hsize) h]

/-! ## Assembly lines -/

theorem assemble_hashInit (a : Alg) : assemble (.hashInit a) = encode (hashInitOf a) := by
  rw [encode_hashInitOf]; rfl

theorem assemble_hmacInit (a : Alg) (key : ByteText) : assemble (.hmacInit a key) = encode (hmacInitOf a key.bytes) := by
  rw [encode_hmacInitOf]; rfl

theorem assemble_tfEnc (z : TfSize) (key tweak block : ByteText) :
    assemble (.tfEnc (BitVec.ofNat 16 z.bits) key tweak block) =
      encode (tfOf .encrypt z key.bytes tweak.bytes block.bytes) :=
  (encode_tfOf 0 z _ _ _).symm

theorem assemble_tfDec (z : TfSize) (key tweak block : ByteText) :
    assemble (.tfDec (BitVec.ofNat 16 z.bits) key tweak block) =
      encode (tfOf .decrypt z key.bytes tweak.bytes block.bytes) :=
  (encode_tfOf 1 z _ _ _).symm

/-! ## Pseudo-commands -/

theorem pseudoHash_eq (a : Alg) (buffer : Bytes) :
    pseudoHash a buffer = [hashInitOf a, .hashUpdate buffer, .hashFinal].map encode := by
  rw [pseudoHash, assemble_hashInit]; rfl

theorem pseudoDigest_tag (a : Alg) (buffer : Bytes) : pseudoDigest a.tag buffer = pseudoHash a buffer := by
  rw [pseudoDigest, Alg.ofTag_tag]

theorem pseudoHmac_eq (a : Alg) (key input : Bytes) :
    pseudoHmac a key input = [hmacInitOf a key, .hmacUpdate input, .hmacFinal].map encode := by
  rw [pseudoHmac, assemble_hmacInit]; rfl

theorem pseudoThreefish_eq (d : Dir) (z : TfSize) (key tweak block : Bytes) :
    pseudoThreefish d (BitVec.ofNat 16 z.bits) key tweak block = [encode (tfOf d z key tweak block)] := by
  cases d with
  | encrypt => exact congrArg ([·]) (assemble_tfEnc z (.hex key) (.hex tweak) (.hex block))
  | decrypt => exact congrArg ([·]) (assemble_tfDec z (.hex key) (.hex tweak) (.hex block))

/-- The one command of an unknown algorithm is the `HASH_INIT` word of its tag (R103). -/
theorem pseudoDigest_unknown {tag : BitVec 4} (htag : 7 ≤ tag.toNat) (buffer : Bytes) :
    pseudoDigest tag buffer = [⟨commandWord 0x1 tag 0 0, [], [], []⟩] := by
  rw [pseudoDigest, (Alg.ofTag_none_iff tag).mpr htag]
  rfl

theorem commandWord_hasUnrecognizedTag {tag : BitVec 4} (htag : 7 ≤ tag.toNat) (key tweak data : Bytes) :
    Command.HasUnrecognizedTag ⟨commandWord 0x1 tag 0 0, key, tweak, data⟩ := by
  simp [Command.HasUnrecognizedTag, fields_commandWord, htag]

theorem commandWord_hasUnsupportedSize (dir : BitVec 1) {bits : BitVec 16} (hbits : bits ≠ 256 ∧ bits ≠ 512 ∧ bits ≠ 1024)
    (key tweak data : Bytes) : Command.HasUnsupportedSize ⟨commandWord 0x9 0 dir bits, key, tweak, data⟩ := by
  simpa [Command.HasUnsupportedSize, fields_commandWord] using hbits

/-- Settles O60: a line's word is the command word of its fields, whatever the tag or the size, and so is the encoder's. -/
theorem assemblyLinesAreTheirCommands : Obligations.AssemblyLinesAreTheirCommands := by
  refine ⟨assemble_hashInit, assemble_hmacInit, fun _ => rfl, fun _ => rfl, rfl, rfl,
    fun z key tweak block => ⟨assemble_tfEnc z key tweak block, assemble_tfDec z key tweak block⟩, pseudoHash_eq,
    fun a buffer => (pseudoDigest_tag a buffer).trans (pseudoHash_eq a buffer), pseudoHmac_eq, pseudoThreefish_eq,
    fun tag buffer htag => ?_, fun d bits key tweak block h256 h512 h1024 => ?_⟩
  · exact ⟨_, pseudoDigest_unknown htag buffer, (commandWord_hasUnrecognizedTag htag [] [] []).decode_eq⟩
  · have hsize (dir : BitVec 1) := (commandWord_hasUnsupportedSize dir ⟨h256, h512, h1024⟩ key tweak block).decode_eq
    cases d with
    | encrypt => exact ⟨_, rfl, hsize 0⟩
    | decrypt => exact ⟨_, rfl, hsize 1⟩

end Sys2Proof
end

section
/-! PROOFS. The statements on every command and every step: the invariant and the life cycle of the contexts (spec/10_state.md
R20, R22, R23, R25, R30, R32, R39), idempotence and instances (spec/20_memory.md R71, R79), the one response of a command
(spec/30_encoding.md R97; spec/60_exceptions.md R302, R317) and the step itself (spec/70_reset_and_hazards.md R330, R343). -/

namespace Sys2Proof.Machine

/-! ## The three classes of commands -/

theorem instr_class (i : Instr) : isHashCommand i ∨ isHmacCommand i ∨ isThreefishCommand i := by
  rcases instr_cases i with h | h | h | h | h | h | h
  · exact .inl (.inl h)
  · exact .inl (.inr (.inl h))
  · exact .inl (.inr (.inr h))
  · exact .inr (.inl (.inl h))
  · exact .inr (.inl (.inr (.inl h)))
  · exact .inr (.inl (.inr (.inr h)))
  · exact .inr (.inr h)

/-! ## What a command of each class reads and writes -/

/-- A hash command: the new `H` and the response are functions of `H`, and nothing else changes. -/
theorem exec_hashCommand {i : Instr} (hi : isHashCommand i) (c : HashCtx) :
    ∃ c' r, ∀ s : State, s.h = c → exec i s = .next { s with h := c', responses := s.responses ++ [r] } := by
  rcases hi with ⟨a, rfl⟩ | ⟨data, rfl⟩ | rfl
  · exact ⟨ctxInit a, okResponse [], fun s _ => exec_hashInitOf a s⟩
  · cases hp : c.phase with
    | idle => exact ⟨c, errorResponse .invalidSequence, by rintro s rfl; exact exec_hashUpdate_idle data s hp⟩
    | active => exact ⟨absorb c data, okResponse [], by rintro s rfl; exact exec_hashUpdate_active data s hp⟩
  · cases hp : c.phase with
    | idle => exact ⟨c, errorResponse .invalidSequence, by rintro s rfl; exact exec_hashFinal_idle s hp⟩
    | active =>
      exact ⟨HashCtx.wiped, okResponse (finishDigest c), by rintro s rfl; exact exec_hashFinal_active s hp⟩

/-- An HMAC command: the new `M` and the response are functions of `M`, and nothing else changes. -/
theorem exec_hmacCommand {i : Instr} (hi : isHmacCommand i) (m : HmacCtx) :
    ∃ m' r, ∀ s : State, s.m = m → exec i s = .next { s with m := m', responses := s.responses ++ [r] } := by
  rcases hi with ⟨a, key, rfl⟩ | ⟨data, rfl⟩ | rfl
  · exact ⟨hmacStart a key, okResponse [], fun s _ => exec_hmacInitOf a key s⟩
  · cases hp : m.phase with
    | idle => exact ⟨m, errorResponse .invalidSequence, by rintro s rfl; exact exec_hmacUpdate_idle data s hp⟩
    | active =>
      exact ⟨{ m with h := absorb m.h data }, okResponse [], by rintro s rfl; exact exec_hmacUpdate_active data s hp⟩
  · cases hp : m.phase with
    | idle => exact ⟨m, errorResponse .invalidSequence, by rintro s rfl; exact exec_hmacFinal_idle s hp⟩
    | active =>
      exact ⟨HmacCtx.wiped, okResponse (finishDigest (outerPass m)), by rintro s rfl; exact exec_hmacFinal_active s hp⟩

/-- A Threefish command: the response is a function of the operands, and nothing else changes. -/
theorem exec_threefishCommand {i : Instr} (hi : isThreefishCommand i) :
    ∃ r, ∀ s : State, exec i s = .next { s with responses := s.responses ++ [r] } := by
  obtain ⟨d, z, k, t, x, rfl⟩ := hi
  exact ⟨okResponse (tfOutput d z k t x), exec_tfOf d z k t x⟩

theorem exec_hash_keeps_m {i : Instr} {s s' : State} (hi : isHashCommand i) (h : exec i s = .next s') : s'.m = s.m := by
  obtain ⟨c, r, hexec⟩ := exec_hashCommand hi s.h
  obtain rfl := next_inj.mp (h.symm.trans (hexec s rfl))
  rfl

theorem exec_hmac_keeps_h {i : Instr} {s s' : State} (hi : isHmacCommand i) (h : exec i s = .next s') : s'.h = s.h := by
  obtain ⟨m, r, hexec⟩ := exec_hmacCommand hi s.m
  obtain rfl := next_inj.mp (h.symm.trans (hexec s rfl))
  rfl

theorem exec_threefish_keeps {i : Instr} {s s' : State} (hi : isThreefishCommand i) (h : exec i s = .next s') :
    s'.h = s.h ∧ s'.m = s.m := by
  obtain ⟨r, hexec⟩ := exec_threefishCommand hi
  obtain rfl := next_inj.mp (h.symm.trans (hexec s))
  exact ⟨rfl, rfl⟩

/-- Settles O52: what a command of a class writes and answers is a function of the context the class owns. -/
theorem contextsAreDisjoint : Obligations.ContextsAreDisjoint := by
  refine ⟨fun i s s' => exec_hash_keeps_m, fun i s s' => exec_hmac_keeps_h, fun i s s' => exec_threefish_keeps,
    fun i s t s' t' hi hst hs ht => ?_, fun i s t s' t' hi hst hs ht => ?_, fun i s t s' t' hi hs ht => ?_⟩
  · obtain ⟨c, r, hexec⟩ := exec_hashCommand hi t.h
    obtain rfl := next_inj.mp (hs.symm.trans (hexec s hst))
    obtain rfl := next_inj.mp (ht.symm.trans (hexec t rfl))
    exact ⟨rfl, r, rfl, rfl⟩
  · obtain ⟨m, r, hexec⟩ := exec_hmacCommand hi t.m
    obtain rfl := next_inj.mp (hs.symm.trans (hexec s hst))
    obtain rfl := next_inj.mp (ht.symm.trans (hexec t rfl))
    exact ⟨rfl, r, rfl, rfl⟩
  · obtain ⟨r, hexec⟩ := exec_threefishCommand hi
    obtain rfl := next_inj.mp (hs.symm.trans (hexec s))
    obtain rfl := next_inj.mp (ht.symm.trans (hexec t))
    exact ⟨r, rfl, rfl⟩

/-! ## What a command makes of each context -/

/-- Everything a command can do to `H`: start it, feed it, wipe it, or leave it; of the hash commands only the errors in IDLE
leave it. -/
theorem exec_hash_effect {i : Instr} {s s' : State} (h : exec i s = .next s') :
    (∃ a, i = hashInitOf a ∧ s'.h = ctxInit a) ∨
      (∃ data, i = .hashUpdate data ∧ s.h.phase = .active ∧ s'.h = absorb s.h data) ∨
      (i = .hashFinal ∧ s.h.phase = .active ∧ s'.h = HashCtx.wiped) ∨
      ((∀ a, i ≠ hashInitOf a) ∧ (i = .hashFinal → s.h.phase = .idle) ∧ s'.h = s.h) := by
  by_cases hi : isHashCommand i
  · rcases hi with ⟨a, rfl⟩ | ⟨data, rfl⟩ | rfl
    · obtain rfl := next_inj.mp (h.symm.trans (exec_hashInitOf a s))
      exact .inl ⟨a, rfl, rfl⟩
    · cases hp : s.h.phase with
      | idle =>
        obtain rfl := next_inj.mp (h.symm.trans (exec_hashUpdate_idle data s hp))
        exact .inr (.inr (.inr ⟨fun a => ((hashInitOf_ne a).2.2.1 data).symm, fun _ => rfl, rfl⟩))
      | active =>
        obtain rfl := next_inj.mp (h.symm.trans (exec_hashUpdate_active data s hp))
        exact .inr (.inl ⟨data, rfl, rfl, rfl⟩)
    · cases hp : s.h.phase with
      | idle =>
        obtain rfl := next_inj.mp (h.symm.trans (exec_hashFinal_idle s hp))
        exact .inr (.inr (.inr ⟨fun a => (hashInitOf_ne a).1.symm, fun _ => rfl, rfl⟩))
      | active =>
        obtain rfl := next_inj.mp (h.symm.trans (exec_hashFinal_active s hp))
        exact .inr (.inr (.inl ⟨rfl, rfl, rfl⟩))
  · refine .inr (.inr (.inr ⟨fun a ha => hi (.inl ⟨a, ha⟩), fun hf => absurd (.inr (.inr hf)) hi, ?_⟩))
    obtain hmac | htf := (instr_class i).resolve_left hi
    · exact exec_hmac_keeps_h hmac h
    · exact (exec_threefish_keeps htf h).1

/-- Everything a command can do to `M`: start it, feed the wrapped engine, wipe it, or leave it; of the HMAC commands only the
errors in IDLE leave it. -/
theorem exec_hmac_effect {i : Instr} {s s' : State} (h : exec i s = .next s') :
    (∃ a key, i = hmacInitOf a key ∧ s'.m = hmacStart a key) ∨
      (∃ data, i = .hmacUpdate data ∧ s.m.phase = .active ∧ s'.m = { s.m with h := absorb s.m.h data }) ∨
      (i = .hmacFinal ∧ s.m.phase = .active ∧ s'.m = HmacCtx.wiped) ∨
      ((∀ a key, i ≠ hmacInitOf a key) ∧ (i = .hmacFinal → s.m.phase = .idle) ∧ s'.m = s.m) := by
  by_cases hinit : ∃ a key, i = hmacInitOf a key
  · obtain ⟨a, key, rfl⟩ := hinit
    obtain rfl := next_inj.mp (h.symm.trans (exec_hmacInitOf a key s))
    exact .inl ⟨a, key, rfl, rfl⟩
  · have hne : ∀ a key, i ≠ hmacInitOf a key := fun a key hi => hinit ⟨a, key, hi⟩
    by_cases hfinal : i = .hmacFinal
    · subst hfinal
      cases hp : s.m.phase with
      | idle =>
        obtain rfl := next_inj.mp (h.symm.trans (exec_hmacFinal_idle s hp))
        exact .inr (.inr (.inr ⟨hne, fun _ => rfl, rfl⟩))
      | active =>
        obtain rfl := next_inj.mp (h.symm.trans (exec_hmacFinal_active s hp))
        exact .inr (.inr (.inl ⟨rfl, rfl, rfl⟩))
    · rcases exec_hmacCtx_cases h with hm | ⟨a, key, hi, _⟩ | hupdate | ⟨hi, _⟩
      · exact .inr (.inr (.inr ⟨hne, fun hi => absurd hi hfinal, hm⟩))
      · exact absurd hi (hne a key)
      · exact .inr (.inl hupdate)
      · exact absurd hi hfinal

theorem topUp_phase (c : HashCtx) (data : Bytes) : (topUp c data).phase = c.phase := by
  simp only [topUp]
  split <;> rfl

/-- An update keeps the phase, whatever `pending` holds. -/
theorem absorb_keeps_phase (c : HashCtx) (data : Bytes) : (absorb c data).phase = c.phase := topUp_phase c data

/-- Settles O53: of the four things a command can do to a context, a start leaves it ACTIVE, feeding keeps the phase, and a
`FINAL` wipes it or finds it IDLE. -/
theorem phaseTransitions : Obligations.PhaseTransitions := by
  intro i s s' h
  constructor
  · rcases exec_hash_effect h with ⟨a, rfl, hh⟩ | ⟨data, rfl, hp, hh⟩ | ⟨rfl, _, hh⟩ | ⟨hinit, hfinal, hh⟩
    · exact .inl ⟨⟨a, rfl⟩, by rw [hh]; rfl⟩
    · exact .inr (.inr ⟨fun a => ((hashInitOf_ne a).2.2.1 data).symm, nofun, by rw [hh, absorb_keeps_phase]⟩)
    · exact .inr (.inl ⟨rfl, by rw [hh]; rfl⟩)
    · by_cases hi : i = .hashFinal
      · exact .inr (.inl ⟨hi, by rw [hh, hfinal hi]⟩)
      · exact .inr (.inr ⟨hinit, hi, by rw [hh]⟩)
  · rcases exec_hmac_effect h with ⟨a, key, rfl, hm⟩ | ⟨data, rfl, hp, hm⟩ | ⟨rfl, _, hm⟩ | ⟨hinit, hfinal, hm⟩
    · exact .inl ⟨⟨a, key, rfl⟩, by rw [hm]; rfl⟩
    · exact .inr (.inr ⟨fun a key => ((hmacInitOf_ne a key).2.2.2.1 data).symm, nofun, by rw [hm]⟩)
    · exact .inr (.inl ⟨rfl, by rw [hm]; rfl⟩)
    · by_cases hi : i = .hmacFinal
      · exact .inr (.inl ⟨hi, by rw [hm, hfinal hi]⟩)
      · exact .inr (.inr ⟨hinit, hi, by rw [hm]⟩)

theorem tag_eq_fieldAlg_hashInitOf (a : Alg) : a.tag = fieldAlg (encode (hashInitOf a)).cmd := by
  rw [encode_hashInitOf, (fields_commandWord _ _ _ _).2.1]

theorem tag_eq_fieldAlg_hmacInitOf (a : Alg) (key : Bytes) : a.tag = fieldAlg (encode (hmacInitOf a key)).cmd := by
  rw [encode_hmacInitOf, (fields_commandWord _ _ _ _).2.1]

theorem hmacStart_inner_alg (a : Alg) (key : Bytes) : (hmacStart a key).h.alg = a :=
  ((hmacStart_WF a key).active_inner rfl).2

/-- Settles O54: a start writes the tag of its command word, a wipe the tag 0, and feeding keeps the algorithm of the
registers. -/
theorem algIsWrittenByInitAndWipedByFinal : Obligations.AlgIsWrittenByInitAndWipedByFinal := by
  intro i s s' h
  refine ⟨?_, ?_, fun hinit hfinal => ?_, fun hinit hfinal => ?_, ?_, ?_⟩
  · rintro a rfl
    obtain rfl := next_inj.mp (h.symm.trans (exec_hashInitOf a s))
    exact ⟨ctxInit_alg a, tag_eq_fieldAlg_hashInitOf a⟩
  · rintro a key rfl
    obtain rfl := next_inj.mp (h.symm.trans (exec_hmacInitOf a key s))
    exact ⟨rfl, hmacStart_inner_alg a key, tag_eq_fieldAlg_hmacInitOf a key⟩
  · rcases exec_hash_effect h with ⟨a, hi, _⟩ | ⟨data, _, _, hh⟩ | ⟨hi, _⟩ | ⟨_, _, hh⟩
    · exact absurd hi (hinit a)
    · rw [hh, absorb_alg]
    · exact absurd hi hfinal
    · rw [hh]
  · rcases exec_hmac_effect h with ⟨a, key, hi, _⟩ | ⟨data, _, _, hm⟩ | ⟨hi, _⟩ | ⟨_, _, hm⟩
    · exact absurd hi (hinit a key)
    · rw [hm]
      exact ⟨rfl, absorb_alg _ _⟩
    · exact absurd hi hfinal
    · rw [hm]
      exact ⟨rfl, rfl⟩
  · rintro rfl hp
    obtain rfl := next_inj.mp (h.symm.trans (exec_hashFinal_active s hp))
    rfl
  · rintro rfl hp
    obtain rfl := next_inj.mp (h.symm.trans (exec_hmacFinal_active s hp))
    exact ⟨rfl, rfl⟩

/-- Settles O55: a start writes a context that does not depend on the one before it, and Threefish writes none; the
responses do not depend on the contexts. -/
theorem initAndThreefishAreIdempotent : Obligations.InitAndThreefishAreIdempotent := by
  rintro i s s1 s2 (⟨a, rfl⟩ | ⟨a, key, rfl⟩ | hi) h1 h2
  · obtain rfl := next_inj.mp (h1.symm.trans (exec_hashInitOf a s))
    obtain rfl := next_inj.mp (h2.symm.trans (exec_hashInitOf a _))
    exact ⟨rfl, rfl, okResponse [], rfl, List.append_assoc _ _ _⟩
  · obtain rfl := next_inj.mp (h1.symm.trans (exec_hmacInitOf a key s))
    obtain rfl := next_inj.mp (h2.symm.trans (exec_hmacInitOf a key _))
    exact ⟨rfl, rfl, okResponse [], rfl, List.append_assoc _ _ _⟩
  · obtain ⟨r, hexec⟩ := exec_threefishCommand hi
    obtain rfl := next_inj.mp (h1.symm.trans (hexec s))
    obtain rfl := next_inj.mp (h2.symm.trans (hexec _))
    exact ⟨rfl, rfl, r, rfl, List.append_assoc _ _ _⟩

/-! ## The invariant -/

/-- Feeding the wrapped engine keeps `M` well-formed. -/
theorem HmacCtx.WF.feed {m : HmacCtx} (hm : m.WF) (hactive : m.phase = .active) (data : Bytes) :
    HmacCtx.WF { m with h := absorb m.h data } := by
  obtain ⟨hphase, halg⟩ := hm.active_inner hactive
  refine ⟨hm.key_length, absorb_WF m.h data hm.inner hphase, fun _ => ⟨?_, ?_⟩, fun hidle => ?_⟩
  · exact (absorb_keeps_phase m.h data).trans hphase
  · exact (absorb_alg m.h data).trans halg
  · cases hactive.symm.trans hidle

theorem exec_keeps_hash_WF {i : Instr} {s s' : State} (hs : s.h.WF) (h : exec i s = .next s') : s'.h.WF := by
  rcases exec_hash_effect h with ⟨a, _, hh⟩ | ⟨data, _, hp, hh⟩ | ⟨_, _, hh⟩ | ⟨_, _, hh⟩ <;> rw [hh]
  · exact ctxInit_WF a
  · exact absorb_WF s.h data hs hp
  · exact HashCtx.wiped_WF
  · exact hs

theorem exec_keeps_hmac_WF {i : Instr} {s s' : State} (hs : s.m.WF) (h : exec i s = .next s') : s'.m.WF := by
  rcases exec_hmac_effect h with ⟨a, key, _, hm⟩ | ⟨data, _, hp, hm⟩ | ⟨_, _, hm⟩ | ⟨_, _, hm⟩ <;> rw [hm]
  · exact hmacStart_WF a key
  · exact hs.feed hp data
  · exact HmacCtx.wiped_WF
  · exact hs

/-- Settles O58: both contexts are wiped. -/
theorem resetMeetsTheInvariant : Obligations.ResetMeetsTheInvariant := ⟨HashCtx.wiped_WF, HmacCtx.wiped_WF⟩

/-- Everything a step can do: wait, reset, refuse a command with its error, or execute an accepted one. -/
theorem step_cases {s s' : State} (h : step s = .next s') :
    s.inputs = [] ∧ s' = s ∨
      (∃ rest, s.inputs = .reset :: rest ∧ s' = { State.reset with inputs := rest, responses := s.responses }) ∨
      (∃ c rest e, s.inputs = .command c :: rest ∧ decode c = .reject e ∧
        s' = (s.setInputs rest).answer (statusOf e) []) ∨
      (∃ c rest i, s.inputs = .command c :: rest ∧ decode c = .accept i ∧ exec i (s.setInputs rest) = .next s') := by
  cases hin : s.inputs with
  | nil => exact .inl ⟨rfl, next_inj.mp (h.symm.trans (step_no_input s hin))⟩
  | cons x rest =>
    cases x with
    | reset => exact .inr (.inl ⟨rest, rfl, next_inj.mp (h.symm.trans (step_reset s rest hin))⟩)
    | command c =>
      cases hd : decode c with
      | reject e =>
        exact .inr (.inr (.inl ⟨c, rest, e, rfl, hd, next_inj.mp (h.symm.trans (step_reject s c rest e hin hd))⟩))
      | accept i => exact .inr (.inr (.inr ⟨c, rest, i, rfl, hd, (step_accept s c rest i hin hd).symm.trans h⟩))

/-- Settles O57: an accepted command starts, feeds, wipes or leaves each context, and each of these keeps it well-formed; a
reset wipes both, and every other step leaves both. -/
theorem stepKeepsTheInvariant : Obligations.StepKeepsTheInvariant := by
  intro s s' hinv h
  rcases step_cases h with ⟨_, rfl⟩ | ⟨rest, _, rfl⟩ | ⟨c, rest, e, _, _, rfl⟩ | ⟨c, rest, i, _, _, hexec⟩
  · exact hinv
  · exact ⟨HashCtx.wiped_WF, HmacCtx.wiped_WF⟩
  · exact ⟨hinv.hash, hinv.hmac⟩
  · exact ⟨exec_keeps_hash_WF (s := s.setInputs rest) hinv.hash hexec,
      exec_keeps_hmac_WF (s := s.setInputs rest) hinv.hmac hexec⟩

/-! ## The step -/

theorem exec_next (i : Instr) (s : State) : ∃ s', exec i s = .next s' := by
  obtain ⟨c, m, r, hexec, _⟩ := exec_cases i s
  exact ⟨_, hexec⟩

theorem step_next (s : State) : ∃ s', step s = .next s' := by
  obtain ⟨t, new, hstep⟩ := step_uniform s
  exact ⟨_, hstep s.responses⟩

/-- Settles O11: each shape of a command answers a next state, and so does each kind of input. -/
theorem everyStepAnswersNext : Obligations.EveryStepAnswersNext := ⟨step_next, exec_next, step_no_input⟩

/-- Settles O8: the second clause is the first for the command of an encoding, which decodes to its instruction. -/
theorem stepRunsTheDecodedInstruction : Obligations.StepRunsTheDecodedInstruction :=
  ⟨fun s c rest i hin hd => step_accept s c rest i hin hd,
    fun s i rest hwf hin => step_accept s _ rest i hin (decode_encode hwf)⟩

/-- Settles O15: the reset state is the two wiped contexts and no input or response. -/
theorem resetIsAllZeroAndIdle : Obligations.ResetIsAllZeroAndIdle :=
  ⟨rfl, rfl, rfl, rfl, rfl, rfl, rfl, rfl, rfl, rfl, rfl, rfl, fun _ => List.eq_of_mem_replicate, rfl, rfl⟩

/-- Settles O16: the reset input wipes both contexts, as reset does. -/
theorem resetInputRestoresTheResetState : Obligations.ResetInputRestoresTheResetState := step_reset

/-! ## The response -/

/-- A command finds its context IDLE where it needs it ACTIVE (R302). -/
def isOutOfSequence (i : Instr) (s : State) : Prop :=
  (((∃ data, i = .hashUpdate data) ∨ i = .hashFinal) ∧ s.h.phase = .idle) ∨
    (((∃ data, i = .hmacUpdate data) ∨ i = .hmacFinal) ∧ s.m.phase = .idle)

theorem exec_status (i : Instr) (s : State) :
    ∃ t r, exec i s = .next t ∧ t.responses = s.responses ++ [r] ∧
      (isOutOfSequence i s ∧ r = errorResponse .invalidSequence ∨ ¬ isOutOfSequence i s ∧ r.status = statusOk) := by
  obtain ⟨c, m, r, hexec, hshape⟩ := exec_cases i s
  refine ⟨_, r, hexec, rfl, ?_⟩
  rcases hshape with ⟨a, rfl, _, _, rfl⟩ | ⟨data, rfl, hp, _, _, rfl⟩ | ⟨rfl, hp, _, _, rfl⟩ | ⟨hi, hp, _, _, hr⟩ |
    ⟨a, key, rfl, _, _, rfl⟩ | ⟨data, rfl, hp, _, _, rfl⟩ | ⟨rfl, hp, _, _, rfl⟩ | ⟨hi, hp, _, _, hr⟩ |
    ⟨d, z, k, t, x, rfl, _, _, rfl⟩
  · exact .inr ⟨by simp [isOutOfSequence, hashInitOf_ne], rfl⟩
  · exact .inr ⟨by simp [isOutOfSequence, hp], rfl⟩
  · exact .inr ⟨by simp [isOutOfSequence, hp], rfl⟩
  · exact .inl ⟨.inl ⟨hi, hp⟩, hr⟩
  · exact .inr ⟨by simp [isOutOfSequence, hmacInitOf_ne], rfl⟩
  · exact .inr ⟨by simp [isOutOfSequence, hp], rfl⟩
  · exact .inr ⟨by simp [isOutOfSequence, hp], rfl⟩
  · exact .inl ⟨.inr ⟨hi, hp⟩, hr⟩
  · exact .inr ⟨by simp [isOutOfSequence, tfOf_ne], rfl⟩

/-- Settles O13: a decoded command is out of sequence and answers that error, or it is not and answers success. -/
theorem errorsAfterDecoding : Obligations.ErrorsAfterDecoding := by
  intro i s s' r h hresp
  obtain ⟨t, r', hexec, hr', hstatus⟩ := exec_status i s
  obtain rfl := next_inj.mp (h.symm.trans hexec)
  obtain rfl : r' = r := by simpa using hr'.symm.trans hresp
  rcases hstatus with ⟨hseq, rfl⟩ | ⟨hseq, hok⟩
  · exact ⟨.inr rfl, fun _ => hseq, fun _ => rfl⟩
  · refine ⟨.inl hok, fun herr => ?_, fun h => absurd h hseq⟩
    exact absurd (hok.symm.trans herr) (by decide)

/-- The output of a successful command has the length the table gives it (R93, R97). -/
def answerFits (i : Instr) (s : State) (dout : Bytes) : Prop :=
  (i = .hashFinal → dout.length = s.h.alg.digestBytes) ∧
    (i = .hmacFinal → dout.length = s.m.alg.digestBytes) ∧
    (∀ d z key tweak data, i = tfOf d z key tweak data → dout.length = z.blockBytes) ∧
    (i ≠ .hashFinal → i ≠ .hmacFinal → ¬ isThreefishCommand i → dout = [])

/-- The other commands answer no output. -/
theorem answerFits_nil {i : Instr} (s : State) (hhash : i ≠ .hashFinal) (hhmac : i ≠ .hmacFinal)
    (htf : ∀ d z k t x, i ≠ tfOf d z k t x) : answerFits i s [] :=
  ⟨fun h => absurd h hhash, fun h => absurd h hhmac, fun d z k t x h => absurd h (htf d z k t x), fun _ _ _ => rfl⟩

theorem answerFits_hashFinal {s : State} {dout : Bytes} (h : dout.length = s.h.alg.digestBytes) :
    answerFits .hashFinal s dout :=
  ⟨fun _ => h, nofun, fun d z k t x hi => absurd hi.symm (tfOf_ne d z k t x).1, fun hne => absurd rfl hne⟩

theorem answerFits_hmacFinal {s : State} {dout : Bytes} (h : dout.length = s.m.alg.digestBytes) :
    answerFits .hmacFinal s dout :=
  ⟨nofun, fun _ => h, fun d z k t x hi => absurd hi.symm (tfOf_ne d z k t x).2.1, fun _ hne => absurd rfl hne⟩

theorem answerFits_tfOf (d : Dir) (z : TfSize) (k t x : Bytes) (s : State) :
    answerFits (tfOf d z k t x) s (tfOutput d z k t x) := by
  refine ⟨fun h => absurd h (tfOf_ne d z k t x).1, fun h => absurd h (tfOf_ne d z k t x).2.1, ?_,
    fun _ _ hne => absurd ⟨d, z, k, t, x, rfl⟩ hne⟩
  intro d' z' k' t' x' h
  obtain ⟨-, rfl, -⟩ := tfOf_inj h
  exact tfOutput_length d z k t x

theorem finishDigest_length {c : HashCtx} (hc : c.WF) : (finishDigest c).length = c.alg.digestBytes := by
  rw [finishDigest_eq c hc.pending_lt, digestFrom_length _ _ _ hc.regs]
  rfl

theorem finishDigest_outerPass_length (m : HmacCtx) : (finishDigest (outerPass m)).length = m.alg.digestBytes := by
  rw [outerPass_digest, messageDigest_length]

/-- Settles O12: the shapes that answer an output answer a digest, a MAC or a block, whose lengths are known. -/
theorem oneResponseOfTheRightLength : Obligations.OneResponseOfTheRightLength := by
  intro i s s' hinv h
  obtain ⟨c, m, r, hexec, hshape⟩ := exec_cases i s
  obtain rfl := next_inj.mp (h.symm.trans hexec)
  refine ⟨rfl, r, rfl, ?_⟩
  rcases hshape with ⟨a, rfl, _, _, rfl⟩ | ⟨data, rfl, hp, _, _, rfl⟩ | ⟨rfl, hp, _, _, rfl⟩ | ⟨_, _, _, _, rfl⟩ |
    ⟨a, key, rfl, _, _, rfl⟩ | ⟨data, rfl, hp, _, _, rfl⟩ | ⟨rfl, hp, _, _, rfl⟩ | ⟨_, _, _, _, rfl⟩ |
    ⟨d, z, k, t, x, rfl, _, _, rfl⟩
  · obtain ⟨hhash, hhmac, -, -, -, htf⟩ := hashInitOf_ne a
    exact .inr ⟨rfl, answerFits_nil s hhash hhmac htf⟩
  · exact .inr ⟨rfl, answerFits_nil s nofun nofun fun d z k t x hi => (tfOf_ne d z k t x).2.2.1 data hi.symm⟩
  · exact .inr ⟨rfl, answerFits_hashFinal (finishDigest_length hinv.hash)⟩
  · exact .inl ⟨rfl, rfl⟩
  · obtain ⟨hhash, hhmac, -, -, -, htf⟩ := hmacInitOf_ne a key
    exact .inr ⟨rfl, answerFits_nil s hhash hhmac htf⟩
  · exact .inr ⟨rfl, answerFits_nil s nofun nofun fun d z k t x hi => (tfOf_ne d z k t x).2.2.2 data hi.symm⟩
  · exact .inr ⟨rfl, answerFits_hmacFinal (finishDigest_outerPass_length s.m)⟩
  · exact .inl ⟨rfl, rfl⟩
  · exact .inr ⟨rfl, answerFits_tfOf d z k t x s⟩

/-! ## Several instances -/

theorem stepInstance_eq_set {n : Nat} {blocks : List State} {s s' : State} (hn : blocks[n]? = some s)
    (hstep : step s = .next s') : stepInstance n blocks = .next (blocks.set n s') := by
  simp only [stepInstance, hn, hstep]

/-- Settles O59: stepping a copy replaces it in the list and nothing else, and replacements at two places commute. -/
theorem instancesCommute : Obligations.InstancesCommute := by
  intro i j blocks si sj si' sj' hne hi hj hsi hsj
  have hi' : (blocks.set j sj')[i]? = some si := by rw [List.getElem?_set_ne hne.symm, hi]
  have hj' : (blocks.set i si')[j]? = some sj := by rw [List.getElem?_set_ne hne, hj]
  refine ⟨_, _, (blocks.set i si').set j sj', stepInstance_eq_set hi hsi, stepInstance_eq_set hj' hsj,
    stepInstance_eq_set hj hsj, ?_, ?_, ?_, fun n hni hnj => ?_⟩
  · rw [stepInstance_eq_set hi' hsi, List.set_comm _ _ hne.symm]
  · rw [List.getElem?_set_ne hne.symm, List.getElem?_set_self (List.getElem?_eq_some_iff.mp hi).1]
  · rw [List.getElem?_set_self (List.getElem?_eq_some_iff.mp hj').1]
  · rw [List.getElem?_set_ne hnj.symm, List.getElem?_set_ne hni.symm]

end Sys2Proof.Machine
end

section
/-! PROOFS. The statements on the compression units: the MD2 table, checksum and passes (spec/41_md2.md R151, R152), the SHA-1
schedule and steps (spec/43_sha1.md R191, R193), the SHA-2 schedules, rounds and constants (spec/44_sha2_32.md R213, R214;
spec/45_sha2_64.md R232 to R234). -/

namespace Sys2Proof.Machine

/-! ## MD2 -/

/-- The place of a byte value in the MD2 table. -/
def md2Place (y : Byte) : Byte := BitVec.ofNat 8 (md2Rows.flatten.idxOf y)

theorem md2S_md2Place : ∀ y : Byte, md2S (md2Place y) = y := by decide +kernel

/-- Settles O27: every value stands in the table, so no value of the 256 stands there twice. -/
theorem md2TableIsAPermutation : Obligations.Md2TableIsAPermutation := by
  have hsurj : Function.Surjective md2S := fun y => ⟨md2Place y, md2S_md2Place y⟩
  exact ⟨fun _ _ h => Finite.injective_iff_surjective.mpr hsurj h, hsurj⟩

/-- Settles O28: each byte of the checksum from the one before it, the first from the register's last byte. -/
theorem md2ChecksumRecurrence : Obligations.Md2ChecksumRecurrence := by
  intro r blk hx hc hblk
  refine ⟨md2Compress_x_length r blk hx, (md2Compress_c_length r blk).trans hc, ?_, fun j hj => ?_⟩
  · exact md2Checksum_getD _ _ _ 0 (by omega) (by omega)
  · exact md2Checksum_getD _ _ _ (j + 1) (by omega) (by omega)

/-- The running byte and the buffer of an MD2 invocation before pass `j`. -/
def md2BeforePass (buf : Bytes) : Nat → Byte × Bytes
  | 0 => (0, buf)
  | j + 1 =>
    let r := md2Pass (md2BeforePass buf j).1 (md2BeforePass buf j).2
    (r.2 + BitVec.ofNat 8 j, r.1)

@[simp] theorem md2BeforePass_length (buf : Bytes) (j : Nat) : (md2BeforePass buf j).2.length = buf.length := by
  induction j with
  | zero => rfl
  | succ j ih => rw [md2BeforePass, md2Pass_length, ih]

/-- The passes from `j` on take the buffer before pass `j` to the buffer before pass `j + n`. -/
theorem md2Passes_md2BeforePass (buf : Bytes) (n j : Nat) :
    md2Passes n j (md2BeforePass buf j).1 (md2BeforePass buf j).2 = (md2BeforePass buf (j + n)).2 := by
  induction n generalizing j with
  | zero => rfl
  | succ n ih =>
    rw [← Nat.add_assoc, Nat.add_right_comm, ← ih (j + 1)]
    rfl

theorem md2Compress_x (r : Md2Regs) (blk : Bytes) :
    (md2Compress r blk).x = (md2BeforePass (md2Buffer r.x blk) 18).2.take 16 := by
  have h : md2Passes 18 0 0 (md2Buffer r.x blk) = (md2BeforePass (md2Buffer r.x blk) (0 + 18)).2 :=
    md2Passes_md2BeforePass (md2Buffer r.x blk) 18 0
  rw [md2Compress, h]

theorem md2Buffer_length {x blk : Bytes} (hx : x.length = 16) (hblk : blk.length = 16) :
    (md2Buffer x blk).length = 48 := by
  simp [md2Buffer, hx, hblk]

/-- The thirds of the buffer: the old state, the block, and their XOR. -/
theorem md2Buffer_getD {x blk : Bytes} (hx : x.length = 16) (hblk : blk.length = 16) {k : Nat} (hk : k < 16) :
    (md2Buffer x blk).getD k 0 = x.getD k 0 ∧ (md2Buffer x blk).getD (16 + k) 0 = blk.getD k 0 ∧
      (md2Buffer x blk).getD (32 + k) 0 = x.getD k 0 ^^^ blk.getD k 0 := by
  have hxk : k < x.length := by omega
  have hbk : k < blk.length := by omega
  refine ⟨?_, ?_, ?_⟩
  · rw [md2Buffer, List.append_assoc, List.getD_append _ _ _ _ hxk]
  · rw [md2Buffer, List.append_assoc, List.getD_append_right _ _ _ _ (by omega), List.getD_append _ _ _ _ (by omega)]
    congr 1
    omega
  · rw [md2Buffer, List.getD_append_right _ _ _ _ (by simp; omega)]
    have hk' : 32 + k - (x ++ blk).length = k := by simp; omega
    rw [hk']
    simp [List.getD_eq_getElem?_getD, hxk, hbk]

/-- Settles O29: the buffers before the passes are the recurrence; what is kept is the first third of the last one. -/
theorem md2DigestRegistersByPasses : Obligations.Md2DigestRegistersByPasses := by
  intro r blk hx hblk
  have hlen := md2Buffer_length hx hblk
  let before := md2BeforePass (md2Buffer r.x blk)
  refine ⟨fun j k => (before j).2.getD k 0, fun j k => md2Run (before j).1 (before j).2 k,
    fun k hk => md2Buffer_getD hx hblk hk, rfl, fun j k hj hk => ⟨?_, rfl⟩, fun j hj => ?_,
    md2Compress_x_length r blk hx, fun k hk => ?_⟩
  · exact md2Pass_getD _ _ k (by rw [md2BeforePass_length, hlen]; exact hk)
  · have hlast := md2Pass_snd (before j).1 (before j).2
    rw [md2BeforePass_length, hlen] at hlast
    exact congrArg (· + BitVec.ofNat 8 j) hlast
  · rw [md2Compress_x]
    simp [List.getD_eq_getElem?_getD, hk, before]

/-! ## Schedules, the earliest word first -/

/-- A schedule built with its latest word first begins with the words it was extended from. -/
theorem reverse_getD_of_drop_eq {w n : Nat} {e ws : List (BitVec w)} (h : e.drop n = ws.reverse) {t : Nat}
    (ht : t < ws.length) : e.reverse.getD t 0 = ws.getD t 0 := by
  have hsplit : e.reverse = ws ++ (e.take n).reverse := by
    rw [← List.reverse_reverse ws, ← h, ← List.reverse_append, List.take_append_drop]
  rw [hsplit, List.getD_append _ _ _ _ ht]

/-- The word `j` places before word `t`, read where the latest word stands first. -/
theorem getD_eq_reverse_getD_sub {w : Nat} (e : List (BitVec w)) {t j : Nat} (hj : j ≤ t) (ht : t < e.length) :
    e.getD (e.length - 1 - t + j) 0 = e.reverse.getD (t - j) 0 := by
  rw [getD_reverse _ _ _ (by omega)]
  congr 1
  omega

theorem sha1NextWord_drop (e : List W32) (i : Nat) :
    sha1NextWord (e.drop (i + 1)) =
      rotl (e.getD (i + 3) 0 ^^^ e.getD (i + 8) 0 ^^^ e.getD (i + 14) 0 ^^^ e.getD (i + 16) 0) 1 := by
  simp only [sha1NextWord, List.getD_eq_getElem?_getD, List.getElem?_drop, Nat.add_assoc, Nat.reduceAdd]

theorem sha1Schedule_length (blk : Bytes) : (sha1Schedule blk).length = 80 := by simp [sha1Schedule]

/-- Settles O31: the block's words are what the extension keeps, and each further word is the next one after those before
it. -/
theorem sha1ScheduleRecurrence : Obligations.Sha1ScheduleRecurrence := by
  intro blk
  let e := sha1Extend 64 (beWords 32 16 blk).reverse
  have hlen : e.length = 80 := by simp [e]
  refine ⟨sha1Schedule_length blk, fun t ht => ?_, fun t hlow ht => ?_⟩
  · have hkept := reverse_getD_of_drop_eq (sha1Extend_drop 64 (beWords 32 16 blk).reverse) (t := t) (by simpa using ht)
    exact hkept.trans (beWords_getD 32 16 blk t ht)
  · have hword (j : Nat) (hj : j ≤ t) := getD_eq_reverse_getD_sub e hj (by omega)
    have hnext := sha1Extend_getD 64 (beWords 32 16 blk).reverse (e.length - 1 - t) (by omega)
    rw [sha1NextWord_drop, hword 3 (by omega), hword 8 (by omega), hword 14 (by omega), hword 16 (by omega)] at hnext
    exact (hword 0 (Nat.zero_le t)).symm.trans hnext

/-- The recurrence of both SHA-2 schedules, at any width, for `n` words after sixteen. -/
theorem sha2Extend_reverse_getD {w : Nat} (s0 s1 : BitVec w → BitVec w) (n : Nat) (ws : List (BitVec w))
    (hws : ws.length = 16) {t : Nat} (hlow : 16 ≤ t) (ht : t < n + 16) :
    let schedule := (sha2Extend s0 s1 n ws.reverse).reverse
    schedule.getD t 0 =
      s1 (schedule.getD (t - 2) 0) + schedule.getD (t - 7) 0 + s0 (schedule.getD (t - 15) 0) +
        schedule.getD (t - 16) 0 := by
  intro schedule
  let e := sha2Extend s0 s1 n ws.reverse
  have hlen : e.length = n + 16 := by simp [e, hws]
  have hword (j : Nat) (hj : j ≤ t) := getD_eq_reverse_getD_sub e hj (by omega)
  have hnext := sha2Extend_getD s0 s1 n ws.reverse (e.length - 1 - t) (by omega)
  rw [hword 2 (by omega), hword 7 (by omega), hword 15 (by omega), hword 16 (by omega)] at hnext
  exact (hword 0 (Nat.zero_le t)).symm.trans hnext

/-- Both SHA-2 schedules begin with the block's words. -/
theorem sha2Extend_reverse_getD_block {w : Nat} (s0 s1 : BitVec w → BitVec w) (n : Nat) (blk : Bytes) {t : Nat}
    (ht : t < 16) :
    (sha2Extend s0 s1 n (beWords w 16 blk).reverse).reverse.getD t 0 =
      beWord w ((blk.drop (w / 8 * t)).take (w / 8)) :=
  (reverse_getD_of_drop_eq (sha2Extend_drop s0 s1 n _) (by simpa using ht)).trans (beWords_getD w 16 blk t ht)

theorem sha2W32Schedule_length (blk : Bytes) : (sha2W32Schedule blk).length = 64 := by simp [sha2W32Schedule]

theorem sha2W64Schedule_length (blk : Bytes) : (sha2W64Schedule blk).length = 80 := by simp [sha2W64Schedule]

/-- Settles O33: the recurrence holds at any width, and the small sigma functions are the units' own. -/
theorem sha2ScheduleRecurrence : Obligations.Sha2ScheduleRecurrence := by
  intro blk
  refine ⟨sha2W32Schedule_length blk, sha2W64Schedule_length blk, fun t ht => ⟨?_, ?_⟩, fun t hlow ht => ?_,
    fun t hlow ht => ?_⟩
  · exact sha2Extend_reverse_getD_block sigma0W32 sigma1W32 48 blk ht
  · exact sha2Extend_reverse_getD_block sigma0W64 sigma1W64 64 blk ht
  · exact sha2Extend_reverse_getD sigma0W32 sigma1W32 48 (beWords 32 16 blk) (beWords_length 32 16 blk) hlow ht
  · exact sha2Extend_reverse_getD sigma0W64 sigma1W64 64 (beWords 64 16 blk) (beWords_length 64 16 blk) hlow ht

/-! ## Steps and rounds -/

/-- The round of twenty a SHA-1 step belongs to. -/
theorem sha1_round_eq {t : Nat} (ht : t < 80) :
    t / 20 = if t < 20 then 0 else if t < 40 then 1 else if t < 60 then 2 else 3 := by
  split_ifs <;> omega

theorem sha1F_eq {t : Nat} (ht : t < 80) (b c d : W32) :
    sha1F t b c d =
      if t < 20 then (b &&& c) ||| (~~~b &&& d) else if t < 40 then b ^^^ c ^^^ d
        else if t < 60 then (b &&& c) ||| (b &&& d) ||| (c &&& d) else b ^^^ c ^^^ d := by
  rw [sha1F, sha1_round_eq ht]
  split_ifs <;> rfl

theorem sha1K_eq {t : Nat} (ht : t < 80) :
    sha1K t = if t < 20 then 0x5A827999 else if t < 40 then 0x6ED9EBA1 else if t < 60 then 0x8F1BBCDC else 0xCA62C1D6 := by
  rw [sha1K, sha1_round_eq ht]
  split_ifs <;> rfl

/-- The SHA-1 working words after the first `t` steps. -/
def sha1Working (s : Sha1Regs) (blk : Bytes) (t : Nat) : Sha1Regs := sha1Steps 0 ((sha1Schedule blk).take t) s

theorem sha1Working_succ (s : Sha1Regs) (blk : Bytes) {t : Nat} (ht : t < 80) :
    sha1Working s blk (t + 1) = sha1Step t ((sha1Schedule blk).getD t 0) (sha1Working s blk t) :=
  sha1Steps_take_succ _ s t (by rwa [sha1Schedule_length])

theorem sha1Compress_eq (s : Sha1Regs) (blk : Bytes) :
    sha1Compress s blk =
      { a := s.a + (sha1Working s blk 80).a, b := s.b + (sha1Working s blk 80).b, c := s.c + (sha1Working s blk 80).c,
        d := s.d + (sha1Working s blk 80).d, e := s.e + (sha1Working s blk 80).e } := by
  rw [sha1Working, List.take_of_length_le (sha1Schedule_length blk).le]
  rfl

/-- Settles O32: the working words along the steps are the recurrence, a step's function and constant read by round. -/
theorem sha1CompressBySteps : Obligations.Sha1CompressBySteps := by
  intro s blk
  refine ⟨sha1Working s blk, rfl, fun t ht => ?_, sha1Compress_eq s blk⟩
  rw [sha1Working_succ s blk ht, sha1Step, sha1F_eq ht, sha1K_eq ht]

/-- The SHA-2 working words after the first `t` rounds. -/
def sha2Working {w : Nat} (b0 b1 : BitVec w → BitVec w) (ks ws : List (BitVec w)) (s : Sha2Regs w) (t : Nat) : Sha2Regs w :=
  sha2Rounds b0 b1 (ks.take t) (ws.take t) s

theorem sha2Working_last {w n : Nat} (b0 b1 : BitVec w → BitVec w) {ks ws : List (BitVec w)} (hks : ks.length = n)
    (hws : ws.length = n) (s : Sha2Regs w) : sha2Working b0 b1 ks ws s n = sha2Rounds b0 b1 ks ws s := by
  rw [sha2Working, List.take_of_length_le hks.le, List.take_of_length_le hws.le]

theorem sha256K_length : sha256K.length = 64 := rfl

theorem sha512K_length : sha512K.length = 80 := rfl

/-- Settles O34: a round of either width is the recurrence, once there is a constant and a schedule word for it. -/
theorem sha2CompressByRounds : Obligations.Sha2CompressByRounds := by
  refine ⟨fun s blk => ?_, fun s blk => ?_⟩
  · have hws := sha2W32Schedule_length blk
    have hlast := sha2Working_last bigSigma0W32 bigSigma1W32 sha256K_length hws s
    refine ⟨sha2Working bigSigma0W32 bigSigma1W32 sha256K (sha2W32Schedule blk) s, rfl, fun t ht => ?_, ?_, ?_⟩
    · exact sha2Rounds_take_succ _ _ _ _ s t (by rwa [sha256K_length]) (by rwa [hws])
    · rw [hlast]; rfl
    · rw [hlast]; rfl
  · have hws := sha2W64Schedule_length blk
    have hlast := sha2Working_last bigSigma0W64 bigSigma1W64 sha512K_length hws s
    refine ⟨sha2Working bigSigma0W64 bigSigma1W64 sha512K (sha2W64Schedule blk) s, rfl, fun t ht => ?_, ?_, ?_⟩
    · exact sha2Rounds_take_succ _ _ _ _ s t (by rwa [sha512K_length]) (by rwa [hws])
    · rw [hlast]; rfl
    · rw [hlast]; rfl

/-- Settles O35: the two tables side by side. -/
theorem sha512ConstantsExtendSha256Constants : Obligations.Sha512ConstantsExtendSha256Constants :=
  ⟨sha256K_length, sha512K_length, by decide⟩

end Sys2Proof.Machine
end

section
/-! PROOFS. The statements of spec/40_streaming_engine.md: the hash commands on `H` (R122, R124, R125, R126, R128), the digest
encodings, the length field and the padded tail (R127), the number of invocations (R129), and a whole stream of commands
(R103, R131). -/

namespace Sys2Proof.Machine

/-! ## The hash commands -/

/-- Settles O17: every `HASH_INIT` starts `H` with its algorithm's initial registers, which are the constants. -/
theorem hashInitLoadsTheConstants : Obligations.HashInitLoadsTheConstants := fun s =>
  ⟨exec_hashInitOf .md2 s, exec_hashInitOf .md5 s, exec_hashInitOf .sha1 s, exec_hashInitOf .sha224 s,
    exec_hashInitOf .sha256 s, exec_hashInitOf .sha384 s, exec_hashInitOf .sha512 s⟩

/-- Settles O18: the update of a context whose `pending` is short of a block, with no top-up. -/
theorem hashUpdateCompressesTheFullBlocks : Obligations.HashUpdateCompressesTheFullBlocks := by
  intro s data hactive hp
  rw [exec_hashUpdate_active data s hactive, absorb_eq s.h data hp, hactive]
  rfl

/-- Settles O19: the digest is that of the registers, the pending bytes and the counter. -/
theorem hashFinalAnswersTheDigestAndWipes : Obligations.HashFinalAnswersTheDigestAndWipes := by
  intro s hactive hp
  rw [exec_hashFinal_active s hactive, finishDigest_eq s.h hp]
  rfl

/-- Settles O56: an empty update leaves its context, so only the response is new. -/
theorem emptyUpdateIsANoOp : Obligations.EmptyUpdateIsANoOp := by
  refine ⟨fun s hactive hp => ?_, fun s hactive hp => ?_⟩
  · rw [exec_hashUpdate_active [] s hactive, absorb_nil s.h hp]
    rfl
  · rw [exec_hmacUpdate_active [] s hactive, absorb_nil s.m.h hp]
    rfl

/-! ## Encodings and the padded tail -/

/-- Settles O20: each unit encodes its state words in order, from the first on. -/
theorem digestEncodingsByUnit : Obligations.DigestEncodingsByUnit := by
  refine ⟨fun _ _ => rfl, ?_, ?_, ?_, ?_⟩
  all_goals
    intros
    simp [encodeDigest, md5Encode, sha1Encode, sha224Encode, sha256Encode, sha384Encode, sha512Encode, sha2Encode,
      Sha2Regs.toList, bytesOfLeWords, bytesOfBeWords]

theorem natOfLe_leBytes_bitLength (t : W64) : natOfLe (leBytes (bitLength t)) = (8 * t.toNat) % 2 ^ 64 := by
  rw [leBytes, natOfLe_leOfNat, bitLength, BitVec.toNat_ofNat]
  exact Nat.mod_mod _ _

theorem natOfLe_beBytes_reverse_bitLength (t : W64) :
    natOfLe (beBytes (bitLength t)).reverse = (8 * t.toNat) % 2 ^ 64 := by
  rw [beBytes, List.reverse_reverse, natOfLe_leBytes_bitLength]

/-- Settles O24: every field is the bytes of the bit count, in the unit's order, after eight zero bytes where it is wide. -/
theorem lengthFieldHoldsTheBitCount : Obligations.LengthFieldHoldsTheBitCount := by
  intro t
  have hbe := natOfLe_beBytes_reverse_bitLength t
  refine ⟨⟨lengthField_length .md5 t, natOfLe_leBytes_bitLength t⟩, fun a ha => ?_, fun a ha => ?_⟩
  · simp only [List.mem_cons, List.not_mem_nil, or_false] at ha
    rcases ha with rfl | rfl | rfl <;> exact ⟨lengthField_length _ t, hbe⟩
  · simp only [List.mem_cons, List.not_mem_nil, or_false] at ha
    rcases ha with rfl | rfl <;> exact ⟨lengthField_length _ t, rfl, hbe⟩

/-- The padded tail with its zeros counted without a remainder. -/
theorem padMd_eq (c : HashCtx) (hp : c.pending.length < c.alg.blockBytes) :
    padMd c = c.pending ++ [0x80] ++ rep 0 (zerosToFill c.alg c.pending.length) ++ lengthField c.alg c.totalLen := by
  rw [padMd, padZeros_eq _ _ hp]

/-- The zeros fill one block when the field fits behind `pending`, two otherwise. -/
theorem padMd_length (c : HashCtx) (hp : c.pending.length < c.alg.blockBytes) :
    (padMd c).length =
      if c.pending.length + 1 + c.alg.lengthFieldBytes ≤ c.alg.blockBytes then c.alg.blockBytes
        else 2 * c.alg.blockBytes := by
  have hfit := Alg.lengthField_fits c.alg
  simp only [padMd_eq c hp, List.length_append, List.length_singleton, List.length_replicate, lengthField_length,
    zerosToFill]
  split <;> omega

/-- Settles O25: the tail's zeros fill exactly the first block or exactly the second. -/
theorem paddedTailIsOneOrTwoBlocks : Obligations.PaddedTailIsOneOrTwoBlocks := by
  intro c _ hp
  have hfit := Alg.lengthField_fits c.alg
  refine ⟨⟨_, padMd_eq c hp⟩, fun h => ?_, fun h => ?_⟩
  · rw [padMd_length c hp, if_pos (by omega)]
  · rw [padMd_length c hp, if_neg (by omega)]

/-! ## Invocations -/

/-- A remainder of a block and the length field end in the block of the remainder or in the next one. -/
theorem padded_blocks_eq {n b f : Nat} (hf : f + 1 ≤ b) :
    n / b + (if n % b + 1 + f ≤ b then b else 2 * b) / b = (n + f) / b + 1 := by
  have hb : 0 < b := by omega
  have hlt := Nat.mod_lt n hb
  have hsplit : (n + f) / b = (n % b + f) / b + n / b := by
    rw [← Nat.add_mul_div_left _ _ hb, Nat.add_right_comm, Nat.mod_add_div]
  rw [hsplit]
  split
  · rw [Nat.div_self hb, Nat.div_eq_of_lt (a := n % b + f) (by omega), Nat.zero_add]
  · rw [Nat.mul_div_cancel _ hb, Nat.div_eq_of_lt_le (m := n % b + f) (k := 1) (by omega) (by omega)]
    omega

/-- The full blocks of a message and the blocks of its padded tail (R129). -/
theorem padMd_absorb_blocks (a : Alg) (x : Bytes) :
    x.length / a.blockBytes + (padMd (absorb (ctxInit a) x)).length / a.blockBytes =
      (x.length + a.lengthFieldBytes) / a.blockBytes + 1 := by
  have hp := absorb_pending_lt (ctxInit a) x (ctxInit_pending_lt a)
  rw [padMd_length _ hp, absorb_alg, ctxInit_alg, absorb_ctxInit]
  simp only [afterBlocks_length]
  exact padded_blocks_eq (Alg.lengthField_fits a)

theorem absorb_ctxInit_s (a : Alg) (x : Bytes) :
    (absorb (ctxInit a) x).s = (fullBlocks a.blockBytes x).foldl compress (ivOf a) := by
  rw [absorb_ctxInit, compressAll, ivOf_alg]

/-- The MD2 pad block (R154). -/
def md2PadBlock (pending : Bytes) : Bytes :=
  pending ++ rep (BitVec.ofNat 8 (16 - pending.length)) (16 - pending.length)

theorem md2PadBlock_length {pending : Bytes} (h : pending.length < 16) : (md2PadBlock pending).length = 16 := by
  rw [md2PadBlock, List.length_append, List.length_replicate]
  omega

/-- The MD2 finish compresses the pad block and then the checksum it leaves (R154). -/
theorem finishDigest_md2 {c : HashCtx} {r : Md2Regs} (h : c.s = .md2 r) :
    finishDigest c =
      encodeDigest ([md2PadBlock c.pending, (md2Compress r (md2PadBlock c.pending)).c].foldl compress (.md2 r)) := by
  simp only [finishDigest, h]
  rfl

theorem HashRegs.exists_md2 {s : HashRegs} (h : s.alg = .md2) : ∃ r, s = .md2 r := by
  cases s with
  | md2 r => exact ⟨r, rfl⟩
  | _ => cases h

/-- The blocks `FINISH` compresses after a message: the padded tail's, or for MD2 the pad block and the checksum block
(R126, R154). -/
theorem exists_finish_blocks (a : Alg) (x : Bytes) :
    ∃ tail : List Bytes,
      x.length / a.blockBytes + tail.length =
        (if a = .md2 then x.length / 16 + 2 else (x.length + a.lengthFieldBytes) / a.blockBytes + 1) ∧
      (∀ b ∈ tail, b.length = a.blockBytes) ∧
      finishDigest (absorb (ctxInit a) x) = encodeDigest (tail.foldl compress (absorb (ctxInit a) x).s) := by
  have hinit := ctxInit_WF a
  have hc := absorb_WF (ctxInit a) x hinit rfl
  have halg := (absorb_alg (ctxInit a) x).trans (ctxInit_alg a)
  have hcount := padMd_absorb_blocks a x
  generalize absorb (ctxInit a) x = c at hc halg hcount
  by_cases ha : a = .md2
  · subst ha
    obtain ⟨r, hr⟩ := HashRegs.exists_md2 halg
    have hregs := hc.regs
    have hpad := md2PadBlock_length (halg ▸ hc.pending_lt)
    rw [hr] at hregs
    have hsum := (md2Compress_c_length r (md2PadBlock c.pending)).trans hregs.2
    refine ⟨[md2PadBlock c.pending, (md2Compress r (md2PadBlock c.pending)).c], rfl, ?_, ?_⟩
    · simp [hpad, hsum, Alg.blockBytes]
    · rw [hr, finishDigest_md2 hr]
  · have hne : c.alg ≠ .md2 := by rwa [halg]
    refine ⟨fullBlocks a.blockBytes (padMd c), ?_, fullBlocks_block_length _ _, ?_⟩
    · rw [if_neg ha, fullBlocks_length, hcount]
    · rw [finishDigest_of_ne_md2 c hne, finishMd_eq_tail, halg]

/-- Settles O26: the full blocks go into the registers in the updates and the finish adds its own, all of them one block
long. -/
theorem invocationsPerMessage : Obligations.InvocationsPerMessage := by
  refine ⟨fun a x _ => ?_, fun a x => ?_, fun x r hr => ?_⟩
  · rw [fullBlocks_length, padMd_absorb_blocks]
  · obtain ⟨tail, hcount, hblocks, hdigest⟩ := exists_finish_blocks a x
    refine ⟨tail, fullBlocks_length _ x, hcount, fun b hb => ?_, absorb_ctxInit_s a x, hdigest⟩
    rcases List.mem_append.mp hb with hb | hb
    · exact fullBlocks_block_length _ x b hb
    · exact hblocks b hb
  · have hpending : (absorb (ctxInit .md2) x).pending = afterBlocks 16 x := by rw [absorb_ctxInit]; rfl
    rw [finishDigest_md2 hr, hpending, md2PadBlock, afterBlocks_length]

/-! ## A list of commands, run to the end -/

/-- The instructions, executed one after the other, take the state `s` to the state `t`. -/
def execAll : List Instr → State → State → Prop
  | [], s, t => s = t
  | i :: is, s, t => ∃ u, exec i s = .next u ∧ execAll is u t

theorem execAll_append {is js : List Instr} {s t u : State} (h1 : execAll is s t) (h2 : execAll js t u) :
    execAll (is ++ js) s u := by
  induction is generalizing s with
  | nil => exact (show s = t from h1) ▸ h2
  | cons i is ih =>
    obtain ⟨v, hexec, hrest⟩ := h1
    exact ⟨v, hexec, ih hrest⟩

theorem execAll_single {i : Instr} {s t : State} (h : exec i s = .next t) : execAll [i] s t := ⟨t, h, rfl⟩

/-- A command does not touch the commands issued behind it. -/
theorem exec_issue {i : Instr} {s t : State} (h : exec i s = .next t) (cs : List Command) (rest : List Input) :
    exec i (s.issue cs rest) = .next (t.issue cs rest) := by
  obtain ⟨c, m, r, hexec⟩ := exec_uniform i s
  obtain rfl := next_inj.mp (h.symm.trans (hexec s.inputs s.responses))
  exact hexec (cs.map Input.command ++ rest) s.responses

/-- The encodings of the instructions, issued as commands, run in as many steps and leave the later inputs waiting. -/
theorem run_issue_encode {is : List Instr} (hwf : ∀ i ∈ is, i.wellFormed = true) {s t : State} (h : execAll is s t)
    (rest : List Input) :
    Host.Core.run Sys2Proof.core is.length (s.issue (is.map encode) rest) = .next (t.setInputs rest) := by
  induction is generalizing s with
  | nil =>
    obtain rfl : s = t := h
    rfl
  | cons i is ih =>
    obtain ⟨u, hexec, hrest⟩ := h
    have hstep : step (s.issue ((i :: is).map encode) rest) = .next (u.issue (is.map encode) rest) :=
      (step_accept _ _ _ i rfl (decode_encode (hwf i List.mem_cons_self))).trans (exec_issue hexec _ rest)
    rw [List.length_cons, run_succ _ _ _ hstep]
    exact ih (fun j hj => hwf j (List.mem_cons_of_mem i hj)) hrest

/-- The responses of a list of updates, one piece more. -/
theorem append_replicate_succ {α : Type} (l : List α) (n : Nat) (r : α) :
    l ++ [r] ++ List.replicate n r = l ++ List.replicate (n + 1) r := by
  rw [List.append_assoc, List.replicate_succ]
  rfl

/-- One update per piece: `H` absorbs the pieces in order, with one empty response each. -/
theorem execAll_hashUpdate (pieces : List Bytes) (s : State) (hactive : s.h.phase = .active) :
    execAll (pieces.map Instr.hashUpdate) s
      { s with h := pieces.foldl absorb s.h
               responses := s.responses ++ List.replicate pieces.length (okResponse []) } := by
  induction pieces generalizing s with
  | nil => simp [execAll]
  | cons x pieces ih =>
    have hrest := ih ((s.setH (absorb s.h x)).answer statusOk []) ((absorb_keeps_phase s.h x).trans hactive)
    rw [State.answer_responses, State.setH_responses] at hrest
    have hresp := append_replicate_succ s.responses pieces.length (okResponse [])
    exact ⟨_, exec_hashUpdate_active x s hactive, hresp ▸ hrest⟩

theorem finishDigest_foldl_absorb (a : Alg) (pieces : List Bytes) :
    finishDigest (pieces.foldl absorb (ctxInit a)) = messageDigest a pieces.flatten := by
  rw [foldl_absorb pieces _ (ctxInit_pending_lt a)]
  exact hashWhole_eq a pieces.flatten

/-- A stream of hash commands: start, updates, finish. -/
def hashStream (a : Alg) (pieces : List Bytes) : List Instr :=
  hashInitOf a :: pieces.map Instr.hashUpdate ++ [Instr.hashFinal]

theorem hashStream_length (a : Alg) (pieces : List Bytes) : (hashStream a pieces).length = pieces.length + 2 := by
  simp [hashStream]

theorem wellFormed_of_mem_hashStream {a : Alg} {pieces : List Bytes} {i : Instr} (hi : i ∈ hashStream a pieces) :
    i.wellFormed = true := by
  simp only [hashStream, List.cons_append, List.mem_cons, List.mem_append, List.mem_map, List.not_mem_nil,
    or_false] at hi
  rcases hi with rfl | ⟨x, _, rfl⟩ | rfl
  · exact wellFormed_hashInitOf a
  · rfl
  · rfl

theorem execAll_hashStream (a : Alg) (pieces : List Bytes) (s : State) :
    execAll (hashStream a pieces) s
      { s with h := HashCtx.wiped
               responses := s.responses ++ List.replicate (pieces.length + 1) (okResponse []) ++
                 [okResponse (messageDigest a pieces.flatten)] } := by
  have hupdates := execAll_hashUpdate pieces ((s.setH (ctxInit a)).answer statusOk []) rfl
  have hphase : (pieces.foldl absorb (ctxInit a)).phase = .active := by
    rw [foldl_absorb pieces _ (ctxInit_pending_lt a), absorb_keeps_phase]
    rfl
  have hfinal := exec_hashFinal_active { s with
    h := pieces.foldl absorb (ctxInit a)
    responses := s.responses ++ [okResponse []] ++ List.replicate pieces.length (okResponse []) } hphase
  rw [finishDigest_foldl_absorb] at hfinal
  refine ⟨_, exec_hashInitOf a s, execAll_append hupdates ?_⟩
  rw [← append_replicate_succ]
  exact execAll_single hfinal

/-- Settles O22: the encodings run as their instructions; the pieces are absorbed as the whole message, whatever the cut, and
the finish of that is the message digest. -/
theorem streamOfCommandsAnswersTheMessageDigest : Obligations.StreamOfCommandsAnswersTheMessageDigest := by
  intro a pieces s rest
  rw [← hashStream_length a pieces]
  exact run_issue_encode (fun _ => wellFormed_of_mem_hashStream) (execAll_hashStream a pieces s) rest

end Sys2Proof.Machine
end

section
/-! PROOFS. The statements of spec/46_hmac.md: `HMAC_UPDATE` and `HMAC_FINAL` (R252, R253), the key-length branches (R250, R262)
and a whole stream of commands (R261). -/

namespace Sys2Proof.Machine

/-! ## The HMAC commands -/

/-- Settles O39: the wrapped engine's update, with no top-up. -/
theorem hmacUpdateForwardsToTheEngine : Obligations.HmacUpdateForwardsToTheEngine := by
  intro s data hactive hp
  rw [exec_hmacUpdate_active data s hactive, absorb_eq s.m.h data hp]
  rfl

/-- Settles O40: the outer pass is the digest of the padded key and the inner digest, and the inner digest is that of what
`M.H` holds. -/
theorem hmacFinalAnswersTheMacAndWipes : Obligations.HmacFinalAnswersTheMacAndWipes := by
  intro s hm hactive
  rw [exec_hmacFinal_active s hactive, outerPass_digest, finishDigest_eq s.m.h hm.inner.pending_lt]
  rfl

/-! ## Keys with the same derived key -/

/-- `HMAC_INIT` reads of the key only the key derived from it. -/
theorem exec_hmacInitOf_congr {a : Alg} {key key' : Bytes} (h : derivedKey a key = derivedKey a key') (s : State) :
    exec (hmacInitOf a key) s = exec (hmacInitOf a key') s := by
  rw [exec_hmacInitOf, exec_hmacInitOf, hmacStart, hmacStart, h]

theorem derivedKey_messageDigest {a : Alg} {key : Bytes} (h : a.blockBytes < key.length) :
    derivedKey a key = derivedKey a (messageDigest a key) := by
  have hfits : (messageDigest a key).length ≤ a.blockBytes := by
    rw [messageDigest_length]
    exact Alg.digest_fits a
  rw [derivedKey_of_long a key h, derivedKey_of_fits a _ hfits]

theorem derivedKey_append_zero {a : Alg} {key : Bytes} (h : key.length < a.blockBytes) :
    derivedKey a key = derivedKey a (key ++ [0]) := by
  have hlen : (key ++ [(0 : Byte)]).length = key.length + 1 := List.length_append
  have hzeros : a.blockBytes - key.length = a.blockBytes - (key.length + 1) + 1 := by omega
  rw [derivedKey_of_fits a key h.le, derivedKey_of_fits a _ (by omega), hlen, hzeros, List.append_assoc]
  rfl

theorem derivedKey_of_block {a : Alg} {key : Bytes} (h : key.length = a.blockBytes) : derivedKey a key = key := by
  rw [derivedKey_of_fits a key h.le, h, Nat.sub_self]
  exact List.append_nil key

/-- Settles O42: in the first two branches both keys have one derived key, and in the third it is the key itself. -/
theorem hmacKeyLengthBranches : Obligations.HmacKeyLengthBranches := by
  intro a key s
  refine ⟨fun h => exec_hmacInitOf_congr (derivedKey_messageDigest h) s,
    fun h => exec_hmacInitOf_congr (derivedKey_append_zero h) s, fun h => ?_⟩
  exact ⟨derivedKey_of_block h, _, exec_hmacInitOf a key s, derivedKey_of_block h⟩

/-! ## A stream of HMAC commands -/

/-- One update per piece: `M.H` absorbs the pieces in order, with one empty response each. -/
theorem execAll_hmacUpdate (pieces : List Bytes) (s : State) (hactive : s.m.phase = .active) :
    execAll (pieces.map Instr.hmacUpdate) s
      { s with m := { s.m with h := pieces.foldl absorb s.m.h }
               responses := s.responses ++ List.replicate pieces.length (okResponse []) } := by
  induction pieces generalizing s with
  | nil => simp [execAll]
  | cons x pieces ih =>
    have hrest := ih ((s.setM { s.m with h := absorb s.m.h x }).answer statusOk []) hactive
    rw [State.answer_responses, State.setM_responses] at hrest
    have hresp := append_replicate_succ s.responses pieces.length (okResponse [])
    exact ⟨_, exec_hmacUpdate_active x s hactive, hresp ▸ hrest⟩

/-- The MAC after a start and updates: the inner pass is one digest of the padded key and the pieces. -/
theorem finishDigest_outerPass_foldl_absorb (a : Alg) (key : Bytes) (pieces : List Bytes) :
    finishDigest (outerPass { hmacStart a key with h := pieces.foldl absorb (hmacStart a key).h }) =
      messageMac a key pieces.flatten := by
  have hinner : finishDigest (pieces.foldl absorb (hmacStart a key).h) =
      messageDigest a (xorPad innerPad (derivedKey a key) ++ pieces.flatten) :=
    finishDigest_foldl_absorb a (xorPad innerPad (derivedKey a key) :: pieces)
  rw [outerPass_digest, hinner]
  rfl

/-- A stream of HMAC commands: start, updates, finish. -/
def hmacStream (a : Alg) (key : Bytes) (pieces : List Bytes) : List Instr :=
  hmacInitOf a key :: pieces.map Instr.hmacUpdate ++ [Instr.hmacFinal]

theorem hmacStream_length (a : Alg) (key : Bytes) (pieces : List Bytes) :
    (hmacStream a key pieces).length = pieces.length + 2 := by
  simp [hmacStream]

theorem wellFormed_of_mem_hmacStream {a : Alg} {key : Bytes} {pieces : List Bytes} {i : Instr}
    (hi : i ∈ hmacStream a key pieces) : i.wellFormed = true := by
  simp only [hmacStream, List.cons_append, List.mem_cons, List.mem_append, List.mem_map, List.not_mem_nil,
    or_false] at hi
  rcases hi with rfl | ⟨x, _, rfl⟩ | rfl
  · exact wellFormed_hmacInitOf a key
  · rfl
  · rfl

theorem execAll_hmacStream (a : Alg) (key : Bytes) (pieces : List Bytes) (s : State) :
    execAll (hmacStream a key pieces) s
      { s with m := HmacCtx.wiped
               responses := s.responses ++ List.replicate (pieces.length + 1) (okResponse []) ++
                 [okResponse (messageMac a key pieces.flatten)] } := by
  have hupdates := execAll_hmacUpdate pieces ((s.setM (hmacStart a key)).answer statusOk []) rfl
  have hfinal := exec_hmacFinal_active { s with
    m := { hmacStart a key with h := pieces.foldl absorb (hmacStart a key).h }
    responses := s.responses ++ [okResponse []] ++ List.replicate pieces.length (okResponse []) } rfl
  rw [finishDigest_outerPass_foldl_absorb] at hfinal
  refine ⟨_, exec_hmacInitOf a key s, execAll_append hupdates ?_⟩
  rw [← append_replicate_succ]
  exact execAll_single hfinal

/-- Settles O41: the encodings run as their instructions; the inner pass absorbs the padded key and the whole message, whatever
the cut, and the outer pass is the MAC. -/
theorem streamOfHmacCommandsAnswersTheMac : Obligations.StreamOfHmacCommandsAnswersTheMac := by
  intro a key pieces s rest
  rw [← hmacStream_length a key pieces]
  exact run_issue_encode (fun _ => wellFormed_of_mem_hmacStream) (execAll_hmacStream a key pieces s) rest

end Sys2Proof.Machine
end

section
/-! PROOFS. The statements of spec/47_threefish.md on the commands (R276, R280, R281), MIX (R277) and the tables (R274, R275). -/

namespace Sys2Proof.Machine

/-- A Threefish command on the bytes of words. -/
theorem exec_tfOf_words (d : Dir) {z : TfSize} {kw v : List W64} (t0 t1 : W64) (s : State) (hkw : kw.length = z.words)
    (hv : v.length = z.words) :
    exec (tfOf d z (bytesOfLeWords kw) (bytesOfLeWords [t0, t1]) (bytesOfLeWords v)) s =
      .next (s.answer statusOk
        (bytesOfLeWords (tfOutputWords d z (tfKeySchedule kw) (tfTweakSchedule [t0, t1]) v))) := by
  rw [exec_tfOf, tfOutput_eq, leWords_bytesOfLeWords64_of_length hkw, leWords_bytesOfLeWords64_of_length hv,
    leWords_bytesOfLeWords64_of_length (n := 2) rfl]

/-- Operands of fitting lengths are the bytes of their own little-endian words. -/
theorem exists_words_of_tfOperandsFit {z : TfSize} {key tweak data : Bytes} (h : tfOperandsFit z key tweak data = true) :
    ∃ (kw v : List W64) (t0 t1 : W64), kw.length = z.words ∧ v.length = z.words ∧
      key = bytesOfLeWords kw ∧ tweak = bytesOfLeWords [t0, t1] ∧ data = bytesOfLeWords v := by
  obtain ⟨hkey, htweak, hdata⟩ := (tfOperandsFit_iff z key tweak data).mp h
  rw [blockBytes_eq_words] at hkey hdata
  exact ⟨leWords 64 z.words key, leWords 64 z.words data, leWord 64 (tweak.take 8), leWord 64 ((tweak.drop 8).take 8),
    leWords_length 64 _ key, leWords_length 64 _ data, (bytesOfLeWords_leWords64 _ key hkey).symm,
    (bytesOfLeWords_leWords64 2 tweak htweak).symm, (bytesOfLeWords_leWords64 _ data hdata).symm⟩

/-- Settles O44: a command decodes the operand words, which are the ones the bytes were made of, and fitting operands are made
of words. -/
theorem threefishTransformsTheBlock : Obligations.ThreefishTransformsTheBlock :=
  ⟨fun _ _ _ t0 t1 s hkw hv => ⟨exec_tfOf_words .encrypt t0 t1 s hkw hv, exec_tfOf_words .decrypt t0 t1 s hkw hv⟩,
    fun _ _ _ _ hfit => exists_words_of_tfOperandsFit hfit⟩

/-- Settles O47: the formulas are the definitions, and the rotation and the sum undo each other. -/
theorem mixAndUnmix : Obligations.MixAndUnmix := fun a b r hr => ⟨rfl, rfl, tfUnmix_mix a b r hr, rfl, rfl⟩

theorem tfRotTable_shape (z : TfSize) :
    (tfRotTable z).length = 8 ∧ ∀ row ∈ tfRotTable z, row.length = z.words / 2 ∧ ∀ r ∈ row, 1 ≤ r ∧ r ≤ 63 := by
  cases z <;> decide

theorem tfPerm_even (z : TfSize) : ∀ i, i < z.words → (tfPerm z).getD i 0 % 2 = i % 2 := by
  cases z <;> decide

/-- Settles O51: the tables size by size, and the permutation with its inverse. -/
theorem threefishTablesHaveTheirShapes : Obligations.ThreefishTablesHaveTheirShapes := by
  refine ⟨rfl, fun z => ?_⟩
  obtain ⟨hrows, hrow⟩ := tfRotTable_shape z
  refine ⟨hrows, hrow, tfPerm_length z, fun i hi => ?_⟩
  obtain ⟨⟨_, hinv⟩, hlt, hperm⟩ := tfPerm_inverse z i hi
  exact ⟨hlt, tfPerm_even z i hi, hperm, hinv⟩

end Sys2Proof.Machine
end
